-- ==== Sys2Proof/Word.lean ====
section
/-! DEFINITION. The two word types of the core: the 16-bit word of every register, address and
memory cell (R208, R202), and the 8-bit character of the console streams (R122). -/

namespace Sys2Proof

/-- A 16-bit word: the unit of every register, memory cell and address (R202, R30). `+` on it is the
addition modulo 2^16 of R202. -/
abbrev Word := BitVec 16

/-- An 8-bit character of the console streams (R150). -/
abbrev Byte := BitVec 8

end Sys2Proof
end

