-- ==== Sys2Proof/Config.lean ====
section
/-! DEFINITION. The parameters of the hardware that the spec leaves open as named arguments (R208,
decisions D3 and D13): a machine carries one value of each, fixed for its whole life. -/

namespace Sys2Proof

/-- The four rows of R208 marked "parameter". No instruction writes them; a statement about every
state is a statement about every value of them (assumption 1). -/
structure Config where
  /-- `KBSR_ADDR`, the address of the keyboard-status word. -/
  kbsrAddr : Word
  /-- `KBDR_ADDR`, the address of the keyboard-data word. -/
  kbdrAddr : Word
  /-- `IN_PROMPT`, the characters the IN routine writes before it reads. -/
  inPrompt : List Byte
  /-- `HALT_MSG`, the characters the HALT routine writes. -/
  haltMsg : List Byte
  deriving DecidableEq, Repr

/-- D3: the two device addresses differ. -/
def Config.wf (c : Config) : Bool := c.kbsrAddr != c.kbdrAddr

end Sys2Proof
end

