-- ==== Sys2Proof/Machine/Defaults.lean ====
section
/-! DEFINITION. The default values of the machine's parameters (R208). They come from general knowledge
of the architecture, not from the spec's source document (decisions D3, D13; assumption 1). -/

namespace Sys2Proof.Machine

/-- Default `IN_PROMPT`: the 19 characters "Enter a character: " (R127). -/
def defaultInPrompt : List Byte :=
  [0x45, 0x6E, 0x74, 0x65, 0x72, 0x20, 0x61, 0x20, 0x63, 0x68, 0x61, 0x72, 0x61, 0x63, 0x74, 0x65,
    0x72, 0x3A, 0x20]

/-- Default `HALT_MSG`: "HALT" and a line feed (R129). -/
def defaultHaltMsg : List Byte := [0x48, 0x41, 0x4C, 0x54, 0x0A]

/-- The default of each parameter row of R208. -/
def defaultConfig : Config where
  kbsrAddr := 0xFE00
  kbdrAddr := 0xFE02
  inPrompt := defaultInPrompt
  haltMsg := defaultHaltMsg

/-- `PC_RESET`, the fixed entry address (R208, R25). -/
def pcReset : Word := 0x3000

end Sys2Proof.Machine
end

