-- ==== Sys2Proof/Syntax.lean ====
section
/-! DEFINITION. The instructions of the core: one constructor per row of spec/opcode_table.json, with
the operand fields the row names (R51, R53, R54, R55). -/

namespace Sys2Proof

/-- The eight general-purpose registers R0 to R7 (R11). -/
inductive Reg where
  | r0 | r1 | r2 | r3 | r4 | r5 | r6 | r7
  deriving DecidableEq, Repr

/-- The instructions, in the order of the opcode table. An offset or immediate is the field as
encoded; the machine sign-extends it. `rti` and `res` keep the twelve bits that select nothing,
because the abort they cause records the whole instruction word (R140). -/
inductive Instr where
  /-- BR (R90): the mask bits n, z, p and PCoffset9. -/
  | br (n z p : Bool) (off9 : BitVec 9)
  /-- ADD, register form (R80). -/
  | addReg (dr sr1 sr2 : Reg)
  /-- ADD, immediate form (R81). -/
  | addImm (dr sr1 : Reg) (imm5 : BitVec 5)
  /-- LD (R100). -/
  | ld (dr : Reg) (off9 : BitVec 9)
  /-- ST (R104). -/
  | st (sr : Reg) (off9 : BitVec 9)
  /-- JSR (R93). -/
  | jsr (off11 : BitVec 11)
  /-- JSRR (R94). -/
  | jsrr (base : Reg)
  /-- AND, register form (R82). -/
  | andReg (dr sr1 sr2 : Reg)
  /-- AND, immediate form (R83). -/
  | andImm (dr sr1 : Reg) (imm5 : BitVec 5)
  /-- LDR (R102). -/
  | ldr (dr base : Reg) (off6 : BitVec 6)
  /-- STR (R106). -/
  | str (sr base : Reg) (off6 : BitVec 6)
  /-- RTI (R131), reserved: its execution is a fatal decode error. -/
  | rti (low12 : BitVec 12)
  /-- NOT (R84). -/
  | not (dr sr : Reg)
  /-- LDI (R101). -/
  | ldi (dr : Reg) (off9 : BitVec 9)
  /-- STI (R105). -/
  | sti (sr : Reg) (off9 : BitVec 9)
  /-- JMP (R92); `RET` is `jmp r7` (R62). -/
  | jmp (base : Reg)
  /-- RES (R132), reserved: its execution is a fatal decode error. -/
  | res (low12 : BitVec 12)
  /-- LEA (R103). -/
  | lea (dr : Reg) (off9 : BitVec 9)
  /-- TRAP x20 (R123). -/
  | trapGetc
  /-- TRAP x21 (R124). -/
  | trapOut
  /-- TRAP x22 (R126). -/
  | trapPuts
  /-- TRAP x23 (R127). -/
  | trapIn
  /-- TRAP x24 (R128). -/
  | trapPutsp
  /-- TRAP x25 (R129). -/
  | trapHalt
  /-- TRAP with any other vector (R130). -/
  | trapOther (vect : BitVec 8)
  deriving DecidableEq, Repr

end Sys2Proof
end

