-- ==== Sys2Proof/Machine/State.lean ====
section
/-! DEFINITION. The whole state of the core (10_state.md section 1), the two console streams the core's
rules read and write (R24), the reasons a step can stop, and the state after reset (R25, R171). -/

namespace Sys2Proof.Machine

/-- The condition-flag register `cond`: exactly one of positive, zero, negative, never a combination
(R15). The 16-bit numbers it is stored as (R16) are `Cond.code`. -/
inductive Cond where
  | p | z | n
  deriving DecidableEq, Repr

/-- The two causes of the fatal decode error and the value each records (R140). -/
inductive AbortCause where
  /-- RTI or RES was executed; the instruction word (R131, R132). -/
  | illegalOpcode (instr : Word)
  /-- TRAP with a vector outside 0x20 to 0x25 was executed; the vector (R130). -/
  | badTrapVector (vect : BitVec 8)
  deriving DecidableEq, Repr

/-- The run state `run` (R19). -/
inductive RunState where
  /-- The dispatcher executes instructions. -/
  | running
  /-- Terminal; entered only by the HALT routine (R129). -/
  | halted
  /-- Terminal; entered only by a fatal decode error, with the cause recorded (R140). -/
  | aborted (cause : AbortCause)
  deriving DecidableEq, Repr

/-- The general registers R0 to R7, 16 bits each (R11). -/
structure Regs where
  r0 : Word
  r1 : Word
  r2 : Word
  r3 : Word
  r4 : Word
  r5 : Word
  r6 : Word
  r7 : Word
  deriving DecidableEq, Repr

/-- One listed word of memory: its address as a number, and the word. The core has no bytes and no
byte order (R34), so the unit of memory is the word its addresses name (R30; assumption 3). -/
abbrev Cell := Nat × Word

/-- Memory (R20): the 65536 words, those different from 0x0000 listed by strictly rising address
(`Memory.wf`). An unlisted word reads as 0x0000, its value at reset (R25). -/
structure Memory where
  cells : List Cell
  deriving DecidableEq, Repr

/-- The state of the core and of its console streams. -/
structure State where
  /-- `x[0]` .. `x[7]` (R11). -/
  gpr : Regs
  /-- `pc`: between steps the address of the next instruction to fetch (R13). -/
  pc : Word
  /-- `cond` (R15). -/
  cond : Cond
  /-- `run` (R19). -/
  run : RunState
  /-- `mem`, the two device words included (R20, R21). -/
  mem : Memory
  /-- `inq`: the characters waiting on the input stream, oldest first (R24). -/
  inq : List Byte
  /-- `out`: the characters written so far, oldest first (R24). -/
  out : List Byte
  /-- The machine's parameters (R208); nothing writes them (assumption 1). -/
  cfg : Config
  deriving DecidableEq, Repr

/-- Why a step can end in a fault. -/
inductive Fault where
  /-- The machine is in the run state `ABORTED`, which is to be treated as a fault and never as a
  successful end (R74, R141). Raised by `step` alone, on a state a fatal decode error has left; the
  instruction that caused it has taken its whole effect in the step before. Safe: the hardware
  executes nothing further either (assumption 5). -/
  | aborted (cause : AbortCause)
  deriving DecidableEq, Repr

/-- Why a step can end in a refusal. -/
inductive Refusal where
  /-- An instruction without a meaning; raised by `exec`'s refused arms alone (there is none). Safe. -/
  | notModelled (mnemonic : String)
  /-- PUTS or PUTSP on a memory in which no word is 0x0000: the walk never ends and the step never
  completes (R126, U10). Raised by `execTrapPuts` and `execTrapPutsp`. Safe: no next state is given
  for a step that has none (assumption 8). -/
  | unterminatedString
  deriving DecidableEq, Repr

/-- All eight general registers zero (R25). -/
def Regs.zero : Regs := ⟨0, 0, 0, 0, 0, 0, 0, 0⟩

/-- The machine right after reset with no image loaded and no launch input (R25, R171): registers
zero, `pc` = 0x3000, `cond` = Z, RUNNING, memory zero, `out` empty. The parameters take their
defaults (assumption 1), and the launch parameter `inq` is empty (assumption 4). -/
def State.reset : State where
  gpr := Regs.zero
  pc := pcReset
  cond := .z
  run := .running
  mem := ⟨[]⟩
  inq := []
  out := []
  cfg := defaultConfig

end Sys2Proof.Machine
end

