-- ==== Sys2Proof/Machine/Ops.lean ====
section
/-! DEFINITION. The named operations of 00_scope.md section 6 that every meaning is built from: register
access, memory access with the keyboard poll, the console, the instruction fetch, the trap link, the
held step, and the fatal decode error. -/

namespace Sys2Proof.Machine

/-! ## Updates of one field -/

/-- Read one field of the register file. -/
def Regs.get (g : Regs) : Reg → Word
  | .r0 => g.r0
  | .r1 => g.r1
  | .r2 => g.r2
  | .r3 => g.r3
  | .r4 => g.r4
  | .r5 => g.r5
  | .r6 => g.r6
  | .r7 => g.r7

/-- Write one field of the register file. -/
def Regs.set (g : Regs) (r : Reg) (v : Word) : Regs :=
  match r with
  | .r0 => { g with r0 := v }
  | .r1 => { g with r1 := v }
  | .r2 => { g with r2 := v }
  | .r3 => { g with r3 := v }
  | .r4 => { g with r4 := v }
  | .r5 => { g with r5 := v }
  | .r6 => { g with r6 := v }
  | .r7 => { g with r7 := v }

/-- `x[r]` (R11): an ordinary read; no register is hardwired. -/
def State.reg (s : State) (r : Reg) : Word := s.gpr.get r

/-- `x[r] <- v` (R11). -/
def State.setReg (s : State) (r : Reg) (v : Word) : State := { s with gpr := s.gpr.set r v }

/-- `pc <- v` (R13). -/
def State.setPc (s : State) (v : Word) : State := { s with pc := v }

/-- `cond <- f` (R15). -/
def State.setCond (s : State) (f : Cond) : State := { s with cond := f }

/-- `run <- v` (R19). -/
def State.setRun (s : State) (v : RunState) : State := { s with run := v }

/-- Replace memory. -/
def State.setMem (s : State) (m : Memory) : State := { s with mem := m }

/-- Replace the waiting input. -/
def State.setInq (s : State) (q : List Byte) : State := { s with inq := q }

/-- Replace the written output. -/
def State.setOut (s : State) (o : List Byte) : State := { s with out := o }

/-! ## Memory as a sparse list of words -/

/-- The word listed under a key, 0x0000 if there is none (R25). -/
def lookupCell (k : Nat) : List Cell → Word
  | [] => 0
  | (j, v) :: rest => if j = k then v else lookupCell k rest

/-- Drop every entry under a key. -/
def dropCell (k : Nat) : List Cell → List Cell
  | [] => []
  | (j, v) :: rest => if j = k then dropCell k rest else (j, v) :: dropCell k rest

/-- Put an entry before the first entry of a higher key. -/
def insertCell (k : Nat) (w : Word) : List Cell → List Cell
  | [] => [(k, w)]
  | (j, v) :: rest => if j < k then (j, v) :: insertCell k w rest else (k, w) :: (j, v) :: rest

/-- The canonical form of a list of cells whose keys are at least `lo`: keys strictly rising and below
2^16, and no entry equal to what an unlisted word reads as. -/
def cellsWf : Nat → List Cell → Bool
  | _, [] => true
  | lo, (k, v) :: rest => decide (lo ≤ k) && decide (k < 65536) && v != 0 && cellsWf (k + 1) rest

/-- Memory is in its canonical form, so that equal memories are equal data. -/
def Memory.wf (m : Memory) : Bool := cellsWf 0 m.cells

/-- `mem[a]` (R20). -/
def Memory.read (m : Memory) (a : Word) : Word := lookupCell a.toNat m.cells

/-- `mem[a] <- v` (R20): the old entry goes, and the new one is listed unless it is 0x0000. -/
def Memory.write (m : Memory) (a : Word) (v : Word) : Memory :=
  if v = 0 then ⟨dropCell a.toNat m.cells⟩ else ⟨insertCell a.toNat v (dropCell a.toNat m.cells)⟩

/-! ## The access primitives of the core -/

/-- `zext_16(c)` (R205, R122): the character in bits 7 to 0, zeros above (decision D8). -/
def zext16 (c : Byte) : Word := c.setWidth 16

/-- `MemWrite(a, 1, v)` (R32): a plain store at every address, the device addresses included. -/
def memWrite (a v : Word) (s : State) : State := s.setMem (s.mem.write a v)

/-- `MemRaw(a)` (R33): the stored word, never a poll. -/
def memRaw (a : Word) (s : State) : Word := s.mem.read a

/-- `KbdPoll()` (R148): if a character waits, take it, set the status word to 0x8000 and the data word
to the character; otherwise clear the status word and leave the data word. -/
def kbdPoll (s : State) : State :=
  match s.inq with
  | c :: rest =>
    memWrite s.cfg.kbdrAddr (zext16 c) (memWrite s.cfg.kbsrAddr 0x8000 (s.setInq rest))
  | [] => memWrite s.cfg.kbsrAddr 0x0000 s

/-- `MemRead(a, 1)` (R31): the device-aware read; a read of `KBSR_ADDR` polls before the word is
returned. The word comes with the state the read leaves. -/
def memRead (a : Word) (s : State) : Word × State :=
  if a = s.cfg.kbsrAddr then ((kbdPoll s).mem.read a, kbdPoll s) else (s.mem.read a, s)

/-- `ConIn()` (R151): the oldest waiting character and the state without it; `none` while the queue is
empty, when the step that needs it is not enabled. -/
def conIn (s : State) : Option (Byte × State) :=
  match s.inq with
  | c :: rest => some (c, s.setInq rest)
  | [] => none

/-- `ConOut` of each character in order (R152). -/
def conOut (cs : List Byte) (s : State) : State := s.setOut (s.out ++ cs)

/-! ## The step's frame around an instruction -/

/-- The fetch of R71: a device-aware read at `pc`, then `pc <- pc + 1` (R14). The instruction word comes
with the state its execution starts from. -/
def fetch (s : State) : Word × State :=
  let r := memRead s.pc s
  (r.1, r.2.setPc (r.2.pc + 1))

/-- A step that is not enabled (R73, R157): the machine keeps the state it had before the fetch, until
the host supplies a character. Called on the state after the fetch, of which only `pc` has changed
(assumption 6). -/
def holdStep (s : State) : State := s.setPc (s.pc - 1)

/-- The entry of every TRAP (R120, R158): the incremented `pc` is copied to R7, and nothing else is
saved. The return is the end of the step (R158): nothing is restored, and the next instruction
fetched is the one at `pc`; no instruction returns from a trap or an exception. -/
def trapLink (s : State) : State := s.setReg .r7 s.pc

/-- `raise` (R140): the fatal decode error, the one exception of the core. `run <- ABORTED` with its
cause, and nothing else. -/
def raise (cause : AbortCause) (s : State) : State := s.setRun (.aborted cause)

/-! ## The string walk of PUTS and PUTSP -/

/-- The characters PUTS writes for one word: its low 8 bits (R126). -/
def charsOfPuts (w : Word) : List Byte := [w.extractLsb' 0 8]

/-- The characters PUTSP writes for one word: the low byte, then the high byte if non-zero (R128). -/
def charsOfPutsp (w : Word) : List Byte :=
  if w.extractLsb' 8 8 = 0 then [w.extractLsb' 0 8] else [w.extractLsb' 0 8, w.extractLsb' 8 8]

/-- The characters of the string at `a`: word by word up to the first zero word, the address wrapping
after 0xFFFF (R126, R128, R38). `none` if none of the first `fuel` words is zero. -/
def walkString (chars : Word → List Byte) (s : State) : Nat → Word → Option (List Byte)
  | 0, _ => none
  | fuel + 1, a =>
    if memRaw a s = 0 then some []
    else (walkString chars s fuel (a + 1)).map (chars (memRaw a s) ++ ·)

/-- The whole string at `a`. After 65536 words the walk has visited every word of memory, so `none`
says exactly that no word is zero and the walk never ends (R126). -/
def stringAt (chars : Word → List Byte) (s : State) (a : Word) : Option (List Byte) :=
  walkString chars s 65536 a

end Sys2Proof.Machine
end

