-- ==== Sys2Proof/Machine/Flags.lean ====
section
/-! DEFINITION. The condition-flag logic: the classification of a word (R17), the numbers of the three
flags (R16), and the branch test (R90). -/

namespace Sys2Proof.Machine

/-- The classification of `update_flags`: zero, negative (bit 15 set), else positive (R17). -/
def classify (v : Word) : Cond := if v = 0 then .z else if v[15] then .n else .p

/-- `setcc(i)`: `cond` becomes the classification of the register's current value (R17). -/
def setcc (r : Reg) (s : State) : State := s.setCond (classify (s.reg r))

/-- Write a destination register and then set the flags from it, as every flag-updating instruction
does (R18). -/
def writeDest (r : Reg) (v : Word) (s : State) : State := setcc r (s.setReg r v)

/-- The number a flag is stored as: P = 1, Z = 2, N = 4 (R16, decision D2; assumption 2). -/
def Cond.code : Cond → Word
  | .p => 0x0001
  | .z => 0x0002
  | .n => 0x0004

/-- The 3-bit mask `instr[11:9]` of BR: n, z, p from its high bit to its low bit (R54). -/
def branchMask (n z p : Bool) : BitVec 3 := BitVec.ofBool n ++ BitVec.ofBool z ++ BitVec.ofBool p

/-- BR's condition: `(instr[11:9] & cond[2:0]) != 0` (R90). -/
def branchTaken (n z p : Bool) (c : Cond) : Bool :=
  branchMask n z p &&& c.code.extractLsb' 0 3 != 0

end Sys2Proof.Machine
end

