-- ==== Sys2Proof/Machine/Operands.lean ====
section
/-! DEFINITION. The operand forms: sign extension (R204), character widening (R122) and the four
addressing modes (R107). In every form `pc` is the incremented program counter (R71). -/

namespace Sys2Proof.Machine

/-- `sext_N` (R204). -/
def sext {n : Nat} (v : BitVec n) : Word := v.signExtend 16

/-- The PC-relative address `pc + sext_9(off9)` of BR, LD, LDI, LEA, ST and STI (R107, R90). -/
def pcRelative9 (off9 : BitVec 9) (s : State) : Word := s.pc + sext off9

/-- The PC-relative address `pc + sext_11(off11)` of JSR (R93). -/
def pcRelative11 (off11 : BitVec 11) (s : State) : Word := s.pc + sext off11

/-- The base-plus-offset address `x[BaseR] + sext_6(off6)` of LDR and STR (R107). -/
def baseOffset6 (base : Reg) (off6 : BitVec 6) (s : State) : Word := s.reg base + sext off6

/-- The indirect address of LDI and STI: the word at the PC-relative address, by a device-aware read,
with the state that read leaves (R107, R101, R105). -/
def indirect9 (off9 : BitVec 9) (s : State) : Word × State := memRead (pcRelative9 off9 s) s

end Sys2Proof.Machine
end

