-- ==== Sys2Proof/Machine/Control.lean ====
section
/-! DEFINITION. Control transfer: BR, JMP, JSR, JSRR (42_control.md). `pc` is already incremented. -/

namespace Sys2Proof.Machine

/-- BR (R90): taken when the mask selects the flag that `cond` holds. -/
def execBr (n z p : Bool) (off9 : BitVec 9) (s : State) : Host.Outcome State Fault Refusal :=
  .next (if branchTaken n z p s.cond then s.setPc (pcRelative9 off9 s) else s)

/-- JMP (R92). -/
def execJmp (base : Reg) (s : State) : Host.Outcome State Fault Refusal :=
  .next (s.setPc (s.reg base))

/-- JSR (R93): the link, then the PC-relative target. -/
def execJsr (off11 : BitVec 11) (s : State) : Host.Outcome State Fault Refusal :=
  .next ((s.setReg .r7 s.pc).setPc (pcRelative11 off11 s))

/-- JSRR (R94): the link is written before the base register is read, so `JSRR R7` falls through
(decision D7; assumption 9). -/
def execJsrr (base : Reg) (s : State) : Host.Outcome State Fault Refusal :=
  let linked := s.setReg .r7 s.pc
  .next (linked.setPc (linked.reg base))

end Sys2Proof.Machine
end

