-- ==== Sys2Proof/Machine/LoadStore.lean ====
section
/-! DEFINITION. The data movement instructions LD, LDI, LDR, LEA, ST, STI, STR (43_load_store.md). Every
load and every pointer read is device-aware; every store is plain. -/

namespace Sys2Proof.Machine

/-- Load the word at `ea` into a destination register and set the flags. -/
def loadInto (dr : Reg) (ea : Word) (s : State) : State :=
  let r := memRead ea s
  writeDest dr r.1 r.2

/-- LD (R100). -/
def execLd (dr : Reg) (off9 : BitVec 9) (s : State) : Host.Outcome State Fault Refusal :=
  .next (loadInto dr (pcRelative9 off9 s) s)

/-- LDI (R101): the pointer read first, then the read it points at. -/
def execLdi (dr : Reg) (off9 : BitVec 9) (s : State) : Host.Outcome State Fault Refusal :=
  let p := indirect9 off9 s
  .next (loadInto dr p.1 p.2)

/-- LDR (R102): the base is read before the destination is written. -/
def execLdr (dr base : Reg) (off6 : BitVec 6) (s : State) : Host.Outcome State Fault Refusal :=
  .next (loadInto dr (baseOffset6 base off6 s) s)

/-- LEA (R103): the address itself is the result, and no memory is read. -/
def execLea (dr : Reg) (off9 : BitVec 9) (s : State) : Host.Outcome State Fault Refusal :=
  .next (writeDest dr (pcRelative9 off9 s) s)

/-- ST (R104). -/
def execSt (sr : Reg) (off9 : BitVec 9) (s : State) : Host.Outcome State Fault Refusal :=
  .next (memWrite (pcRelative9 off9 s) (s.reg sr) s)

/-- STI (R105): the pointer read first, then the store. -/
def execSti (sr : Reg) (off9 : BitVec 9) (s : State) : Host.Outcome State Fault Refusal :=
  let p := indirect9 off9 s
  .next (memWrite p.1 (p.2.reg sr) p.2)

/-- STR (R106). -/
def execStr (sr base : Reg) (off6 : BitVec 6) (s : State) : Host.Outcome State Fault Refusal :=
  .next (memWrite (baseOffset6 base off6 s) (s.reg sr) s)

end Sys2Proof.Machine
end

