-- ==== Sys2Proof/Machine/Operate.lean ====
section
/-! DEFINITION. The operate instructions ADD, AND, NOT (41_alu.md). A meaning starts from the state after
the fetch. -/

namespace Sys2Proof.Machine

/-- ADD, register form (R80). -/
def execAddReg (dr sr1 sr2 : Reg) (s : State) : Host.Outcome State Fault Refusal :=
  .next (writeDest dr (s.reg sr1 + s.reg sr2) s)

/-- ADD, immediate form (R81). -/
def execAddImm (dr sr1 : Reg) (imm5 : BitVec 5) (s : State) : Host.Outcome State Fault Refusal :=
  .next (writeDest dr (s.reg sr1 + sext imm5) s)

/-- AND, register form (R82). -/
def execAndReg (dr sr1 sr2 : Reg) (s : State) : Host.Outcome State Fault Refusal :=
  .next (writeDest dr (s.reg sr1 &&& s.reg sr2) s)

/-- AND, immediate form (R83). -/
def execAndImm (dr sr1 : Reg) (imm5 : BitVec 5) (s : State) : Host.Outcome State Fault Refusal :=
  .next (writeDest dr (s.reg sr1 &&& sext imm5) s)

/-- NOT (R84). -/
def execNot (dr sr : Reg) (s : State) : Host.Outcome State Fault Refusal :=
  .next (writeDest dr (~~~(s.reg sr)) s)

end Sys2Proof.Machine
end

