-- ==== Sys2Proof/Decode.lean ====
section
/-! DEFINITION. The decoder of R60, total over all 65536 words, and the encoder written from the same
patterns (R51, R52, R55). Bit 15 is the most significant bit of a word (R203). -/

namespace Sys2Proof

/-- The field of `len` bits whose lowest bit is bit `lo` (R203). -/
def field (w : Word) (lo len : Nat) : BitVec len := w.extractLsb' lo len

/-- The register a 3-bit register field names (R53). -/
def Reg.ofBits (b : BitVec 3) : Reg :=
  match b[2], b[1], b[0] with
  | false, false, false => .r0
  | false, false, true => .r1
  | false, true, false => .r2
  | false, true, true => .r3
  | true, false, false => .r4
  | true, false, true => .r5
  | true, true, false => .r6
  | true, true, true => .r7

/-- The 3-bit number of a register (R53). -/
def Reg.toBits : Reg → BitVec 3
  | .r0 => 0
  | .r1 => 1
  | .r2 => 2
  | .r3 => 3
  | .r4 => 4
  | .r5 => 5
  | .r6 => 6
  | .r7 => 7

/-- The register field whose lowest bit is bit `lo`. -/
def regField (w : Word) (lo : Nat) : Reg := Reg.ofBits (field w lo 3)

/-- TRAP's sub-dispatch on the vector `instr[7:0]` (R121). -/
def decodeTrap (v : BitVec 8) : Instr :=
  if v = 0x20 then .trapGetc
  else if v = 0x21 then .trapOut
  else if v = 0x22 then .trapPuts
  else if v = 0x23 then .trapIn
  else if v = 0x24 then .trapPutsp
  else if v = 0x25 then .trapHalt
  else .trapOther v

/-- R60: the instruction a word decodes to. The match is on the opcode bits `instr[15:12]`, in the
numbering of R52 (the spec's decision D1; assumption 2). Bits that no field takes are not examined
(R56). -/
def decode (w : Word) : Instr :=
  match w[15], w[14], w[13], w[12] with
  | false, false, false, false => .br w[11] w[10] w[9] (field w 0 9)
  | false, false, false, true =>
    if w[5] then .addImm (regField w 9) (regField w 6) (field w 0 5)
    else .addReg (regField w 9) (regField w 6) (regField w 0)
  | false, false, true, false => .ld (regField w 9) (field w 0 9)
  | false, false, true, true => .st (regField w 9) (field w 0 9)
  | false, true, false, false =>
    if w[11] then .jsr (field w 0 11) else .jsrr (regField w 6)
  | false, true, false, true =>
    if w[5] then .andImm (regField w 9) (regField w 6) (field w 0 5)
    else .andReg (regField w 9) (regField w 6) (regField w 0)
  | false, true, true, false => .ldr (regField w 9) (regField w 6) (field w 0 6)
  | false, true, true, true => .str (regField w 9) (regField w 6) (field w 0 6)
  | true, false, false, false => .rti (field w 0 12)
  | true, false, false, true => .not (regField w 9) (regField w 6)
  | true, false, true, false => .ldi (regField w 9) (field w 0 9)
  | true, false, true, true => .sti (regField w 9) (field w 0 9)
  | true, true, false, false => .jmp (regField w 6)
  | true, true, false, true => .res (field w 0 12)
  | true, true, true, false => .lea (regField w 9) (field w 0 9)
  | true, true, true, true => decodeTrap (field w 0 8)

/-- A field put back where `field` takes it from: its lowest bit at bit `lo`. -/
def place {n : Nat} (v : BitVec n) (lo : Nat) : Word := v.setWidth 16 <<< lo

/-- The word of an instruction, written from the patterns of R55. An ignored bit takes the
conventional value R56 names: ones in the low six bits of NOT, zeros elsewhere. -/
def encode : Instr → Word
  | .br n z p off =>
    0x0000 ||| place (BitVec.ofBool n) 11 ||| place (BitVec.ofBool z) 10
      ||| place (BitVec.ofBool p) 9 ||| place off 0
  | .addReg d s t => 0x1000 ||| place d.toBits 9 ||| place s.toBits 6 ||| place t.toBits 0
  | .addImm d s i => 0x1020 ||| place d.toBits 9 ||| place s.toBits 6 ||| place i 0
  | .ld d off => 0x2000 ||| place d.toBits 9 ||| place off 0
  | .st s off => 0x3000 ||| place s.toBits 9 ||| place off 0
  | .jsr off => 0x4800 ||| place off 0
  | .jsrr b => 0x4000 ||| place b.toBits 6
  | .andReg d s t => 0x5000 ||| place d.toBits 9 ||| place s.toBits 6 ||| place t.toBits 0
  | .andImm d s i => 0x5020 ||| place d.toBits 9 ||| place s.toBits 6 ||| place i 0
  | .ldr d b off => 0x6000 ||| place d.toBits 9 ||| place b.toBits 6 ||| place off 0
  | .str s b off => 0x7000 ||| place s.toBits 9 ||| place b.toBits 6 ||| place off 0
  | .rti low => 0x8000 ||| place low 0
  | .not d s => 0x903F ||| place d.toBits 9 ||| place s.toBits 6
  | .ldi d off => 0xA000 ||| place d.toBits 9 ||| place off 0
  | .sti s off => 0xB000 ||| place s.toBits 9 ||| place off 0
  | .jmp b => 0xC000 ||| place b.toBits 6
  | .res low => 0xD000 ||| place low 0
  | .lea d off => 0xE000 ||| place d.toBits 9 ||| place off 0
  | .trapGetc => 0xF020
  | .trapOut => 0xF021
  | .trapPuts => 0xF022
  | .trapIn => 0xF023
  | .trapPutsp => 0xF024
  | .trapHalt => 0xF025
  | .trapOther v => 0xF000 ||| place v 0

/-- The mask and match of the instruction's row in R55. -/
def tableRow : Instr → Word × Word
  | .br _ _ _ _ => (0xF000, 0x0000)
  | .addReg _ _ _ => (0xF020, 0x1000)
  | .addImm _ _ _ => (0xF020, 0x1020)
  | .ld _ _ => (0xF000, 0x2000)
  | .st _ _ => (0xF000, 0x3000)
  | .jsr _ => (0xF800, 0x4800)
  | .jsrr _ => (0xF800, 0x4000)
  | .andReg _ _ _ => (0xF020, 0x5000)
  | .andImm _ _ _ => (0xF020, 0x5020)
  | .ldr _ _ _ => (0xF000, 0x6000)
  | .str _ _ _ => (0xF000, 0x7000)
  | .rti _ => (0xF000, 0x8000)
  | .not _ _ => (0xF000, 0x9000)
  | .ldi _ _ => (0xF000, 0xA000)
  | .sti _ _ => (0xF000, 0xB000)
  | .jmp _ => (0xF000, 0xC000)
  | .res _ => (0xF000, 0xD000)
  | .lea _ _ => (0xF000, 0xE000)
  | .trapGetc => (0xF0FF, 0xF020)
  | .trapOut => (0xF0FF, 0xF021)
  | .trapPuts => (0xF0FF, 0xF022)
  | .trapIn => (0xF0FF, 0xF023)
  | .trapPutsp => (0xF0FF, 0xF024)
  | .trapHalt => (0xF0FF, 0xF025)
  | .trapOther _ => (0xF000, 0xF000)

/-- The bits of the instruction's word that R56 calls ignored and the decoder drops. For RTI and RES
the mask is empty: their low twelve bits change nothing the instruction does but are kept for the
recorded cause (R140). -/
def ignoredBits : Instr → Word
  | .br _ _ _ _ => 0
  | .addReg _ _ _ => 0x0018
  | .addImm _ _ _ => 0
  | .ld _ _ => 0
  | .st _ _ => 0
  | .jsr _ => 0
  | .jsrr _ => 0x063F
  | .andReg _ _ _ => 0x0018
  | .andImm _ _ _ => 0
  | .ldr _ _ _ => 0
  | .str _ _ _ => 0
  | .rti _ => 0
  | .not _ _ => 0x003F
  | .ldi _ _ => 0
  | .sti _ _ => 0
  | .jmp _ => 0x0E3F
  | .res _ => 0
  | .lea _ _ => 0
  | .trapGetc => 0x0F00
  | .trapOut => 0x0F00
  | .trapPuts => 0x0F00
  | .trapIn => 0x0F00
  | .trapPutsp => 0x0F00
  | .trapHalt => 0x0F00
  | .trapOther _ => 0x0F00

/-- Why a string of bits is not one instruction word. No 16-bit word is rejected: decoding is total
over words (R60, R72). -/
inductive DecodeRefusal where
  /-- An instruction is exactly one 16-bit word (R50), and the bits are not one. -/
  | notOneWord (nbits : Nat)
  deriving DecidableEq, Repr

/-- Decode the number `w` given as `nbits` bits, zero above them up to the 16 bits of a word. -/
def decodeBits (nbits w : Nat) : Except DecodeRefusal Instr :=
  if nbits ≤ 16 ∧ w < 2 ^ 16 then .ok (decode (BitVec.ofNat 16 w)) else .error (.notOneWord nbits)

/-- The instruction the decoder reads from the table's numbering of the bits. -/
def decodeTableWord (nbits w : Nat) : Option Instr :=
  match decodeBits nbits w with
  | .ok i => some i
  | .error _ => none

end Sys2Proof
end

