-- ==== Sys2Proof/Machine/Trap.lean ====
section
/-! DEFINITION. TRAP with its six built-in routines, TRAP with any other vector, and the two reserved
opcodes (44_trap_and_reserved.md). Each TRAP starts with the link write of R120; the routine runs
inside the same step. -/

namespace Sys2Proof.Machine

/-- GETC (R123). While no character waits the step is held (R73). -/
def execTrapGetc (s : State) : Host.Outcome State Fault Refusal :=
  match conIn (trapLink s) with
  | some (c, t) => .next (writeDest .r0 (zext16 c) t)
  | none => .next (holdStep s)

/-- OUT (R124). -/
def execTrapOut (s : State) : Host.Outcome State Fault Refusal :=
  let t := trapLink s
  .next (conOut [(t.reg .r0).extractLsb' 0 8] t)

/-- PUTS (R126). -/
def execTrapPuts (s : State) : Host.Outcome State Fault Refusal :=
  let t := trapLink s
  match stringAt charsOfPuts t (t.reg .r0) with
  | some cs => .next (conOut cs t)
  | none => .refused .unterminatedString

/-- IN (R127): the prompt, one character, its echo. While no character waits the whole step is held,
the prompt with it (R73, decision D23). -/
def execTrapIn (s : State) : Host.Outcome State Fault Refusal :=
  let t := trapLink s
  match conIn (conOut t.cfg.inPrompt t) with
  | some (c, u) => .next (writeDest .r0 (zext16 c) (conOut [c] u))
  | none => .next (holdStep s)

/-- PUTSP (R128). -/
def execTrapPutsp (s : State) : Host.Outcome State Fault Refusal :=
  let t := trapLink s
  match stringAt charsOfPutsp t (t.reg .r0) with
  | some cs => .next (conOut cs t)
  | none => .refused .unterminatedString

/-- HALT (R129). -/
def execTrapHalt (s : State) : Host.Outcome State Fault Refusal :=
  let t := trapLink s
  .next ((conOut t.cfg.haltMsg t).setRun .halted)

/-- TRAP with an unrecognised vector (R130): the link has been written when the dispatch fails. -/
def execTrapOther (vect : BitVec 8) (s : State) : Host.Outcome State Fault Refusal :=
  .next (raise (.badTrapVector vect) (trapLink s))

/-- RTI (R131): the fatal decode error, with the instruction word recorded. -/
def execRti (low12 : BitVec 12) (s : State) : Host.Outcome State Fault Refusal :=
  .next (raise (.illegalOpcode (encode (.rti low12))) s)

/-- RES (R132): the fatal decode error, with the instruction word recorded. -/
def execRes (low12 : BitVec 12) (s : State) : Host.Outcome State Fault Refusal :=
  .next (raise (.illegalOpcode (encode (.res low12))) s)

end Sys2Proof.Machine
end

