-- ==== Sys2Proof/Machine/Step.lean ====
section
/-! DEFINITION. One step of the dispatcher (R70, R71), and the placing of an instruction where the next
step fetches. -/

namespace Sys2Proof.Machine

/-- One step. While RUNNING: fetch, decode, execute (R71, R72). A HALTED machine never changes again,
and idles (R19, R74; assumption 5). An ABORTED machine faults with the recorded cause (R141). -/
def step (s : State) : Host.Outcome State Fault Refusal :=
  match s.run with
  | .running => exec (decode (fetch s).1) (fetch s).2
  | .halted => .next s
  | .aborted cause => .fault (.aborted cause)

/-- The state with the given instruction stored at `pc`, the address the next step fetches from, and
the dispatcher RUNNING. The program counter is where it was (assumption 7). -/
def State.withFetchWord (s : State) (_nbits w : Nat) : State :=
  (memWrite s.pc (BitVec.ofNat 16 w) s).setRun .running

end Sys2Proof.Machine
end

