-- ==== Sys2Proof/Machine/Boot.lean ====
section
/-! DEFINITION. What the host does to the machine (R153): loading the program image before the run
(R173, R171) and supplying input characters between steps. -/

namespace Sys2Proof.Machine

/-- Why a file is no program image (R173, decision D16): such a file has no meaning. -/
inductive ImageRefusal where
  /-- Fewer than two bytes: no origin word. Safe. -/
  | noOrigin
  /-- An odd number of bytes. Safe. -/
  | oddLength
  /-- Words past address 0xFFFF. Safe. -/
  | overrun
  deriving DecidableEq, Repr

/-- The big-endian 16-bit words of a file: of each pair of bytes the first is bits 15 to 8 (R34, R173).
`none` if a byte is left over. -/
def imageWords : List Byte → Option (List Word)
  | [] => some []
  | [_] => none
  | hi :: lo :: rest => (imageWords rest).map ((hi ++ lo) :: ·)

/-- Write words at consecutive addresses from `a`, straight into the array (R173). -/
def storeWords (m : Memory) (a : Word) : List Word → Memory
  | [] => m
  | w :: ws => storeWords (m.write a w) (a + 1) ws

/-- Load a program image (R173): the first word is the origin, the others go to memory from there. -/
def loadImage (bytes : List Byte) (s : State) : Except ImageRefusal State :=
  match imageWords bytes with
  | none => if bytes.length < 2 then .error .noOrigin else .error .oddLength
  | some [] => .error .noOrigin
  | some (origin :: ws) =>
    if origin.toNat + ws.length ≤ 0x10000 then .ok (s.setMem (storeWords s.mem origin ws))
    else .error .overrun

/-- The host appends characters to the input stream, at any time between two steps (R153). -/
def supplyInput (cs : List Byte) (s : State) : State := s.setInq (s.inq ++ cs)

/-- The start state of a run (R171): reset with the launch parameters `cfg` and `input`, then the image
loaded. -/
def boot (cfg : Config) (input image : List Byte) : Except ImageRefusal State :=
  loadImage image { State.reset with inq := input, cfg := cfg }

end Sys2Proof.Machine
end

