-- ==== Sys2Proof/Safety.lean ====
section
/-! DEFINITION. The terms claims are stated in: runs and how they end, the invariant of every state, what
an instruction writes according to the spec's own tables, and the relations between the state before
and after a step. -/

namespace Sys2Proof.Machine

/-! ## Runs -/

/-- One move of the machine and its host: a step, or the host appending input (R153). -/
inductive Move (s : State) : State → Prop where
  | step {t : State} (h : step s = .next t) : Move s t
  | input (cs : List Byte) : Move s (supplyInput cs s)

/-- The states a run from `start` can pass through. -/
inductive Reachable (start : State) : State → Prop where
  | start : Reachable start start
  | move {s t : State} (h : Reachable start s) (m : Move s t) : Reachable start t

/-- `ABORTED`: a fault, never a successful final state (R74). -/
def State.failed (s : State) : Prop := ∃ c, s.run = .aborted c

/-- A safe run: no state of it has failed. -/
def SafeFrom (start : State) : Prop := ∀ s, Reachable start s → ¬ s.failed

/-- The invariant: memory is in its canonical form, and the two device addresses differ (D3). -/
def State.inv (s : State) : Prop := s.mem.wf = true ∧ s.cfg.wf = true

/-! ## What an instruction may write -/

/-- The register whose value the flags are set from, for the instructions R18 lists. -/
def flagReg : Instr → Option Reg
  | .br _ _ _ _ => none
  | .addReg dr _ _ => some dr
  | .addImm dr _ _ => some dr
  | .ld dr _ => some dr
  | .st _ _ => none
  | .jsr _ => none
  | .jsrr _ => none
  | .andReg dr _ _ => some dr
  | .andImm dr _ _ => some dr
  | .ldr dr _ _ => some dr
  | .str _ _ _ => none
  | .rti _ => none
  | .not dr _ => some dr
  | .ldi dr _ => some dr
  | .sti _ _ => none
  | .jmp _ => none
  | .res _ => none
  | .lea dr _ => some dr
  | .trapGetc => some .r0
  | .trapOut => none
  | .trapPuts => none
  | .trapIn => some .r0
  | .trapPutsp => none
  | .trapHalt => none
  | .trapOther _ => none

/-- The general registers an instruction may write: its destination, R7 for a call or a TRAP, R0 for
the two input routines (R12, R121). -/
def writtenRegs : Instr → List Reg
  | .br _ _ _ _ => []
  | .addReg dr _ _ => [dr]
  | .addImm dr _ _ => [dr]
  | .ld dr _ => [dr]
  | .st _ _ => []
  | .jsr _ => [.r7]
  | .jsrr _ => [.r7]
  | .andReg dr _ _ => [dr]
  | .andImm dr _ _ => [dr]
  | .ldr dr _ _ => [dr]
  | .str _ _ _ => []
  | .rti _ => []
  | .not dr _ => [dr]
  | .ldi dr _ => [dr]
  | .sti _ _ => []
  | .jmp _ => []
  | .res _ => []
  | .lea dr _ => [dr]
  | .trapGetc => [.r0, .r7]
  | .trapOut => [.r7]
  | .trapPuts => [.r7]
  | .trapIn => [.r0, .r7]
  | .trapPutsp => [.r7]
  | .trapHalt => [.r7]
  | .trapOther _ => [.r7]

/-- The address an instruction stores to from the state after its fetch, by the function its meaning
uses; `none` for an instruction that stores nothing (R44). -/
def storedAddress (i : Instr) (s : State) : Option Word :=
  match i with
  | .st _ off9 => some (pcRelative9 off9 s)
  | .sti _ off9 => some (indirect9 off9 s).1
  | .str _ base off6 => some (baseOffset6 base off6 s)
  | _ => none

/-- GETC or IN with no character waiting: the step is not enabled (R73). -/
def held (i : Instr) (s : State) : Prop := (i = .trapGetc ∨ i = .trapIn) ∧ s.inq = []

/-- R57: the words whose execution is a fatal decode error. -/
def illegalWord (w : Word) : Prop :=
  (0x8000 ≤ w.toNat ∧ w.toNat ≤ 0x8FFF) ∨ (0xD000 ≤ w.toNat ∧ w.toNat ≤ 0xDFFF) ∨
    (0xF000 ≤ w.toNat ∧ ¬ (0x20 ≤ w.toNat % 256 ∧ w.toNat % 256 ≤ 0x25))

/-! ## Relations between words and between states -/

/-- Every word matching the mask decodes to the given instruction. -/
def DecodesTo (mask mtch : Word) (f : Word → Instr) : Prop := ∀ w, w &&& mask = mtch → decode w = f w

/-- The flag of a value, by the ranges of R17. -/
def FlagOf (v : Word) (c : Cond) : Prop :=
  (c = .z ↔ v.toNat = 0) ∧ (c = .n ↔ 0x8000 ≤ v.toNat) ∧
    (c = .p ↔ 1 ≤ v.toNat ∧ v.toNat ≤ 0x7FFF)

/-- `ea` is `base` plus the signed offset, modulo 2^16 (R202, R38). -/
def AddrSum (ea base : Word) (off : Int) : Prop :=
  (ea.toNat : Int) = ((base.toNat : Int) + off) % 65536

/-- Every general register outside the list is unchanged. -/
def KeepsRegs (except : List Reg) (s t : State) : Prop := ∀ r, r ∉ except → t.reg r = s.reg r

/-- Every word of memory reads as before. -/
def KeepsMem (s t : State) : Prop := ∀ a, t.mem.read a = s.mem.read a

/-- Neither console stream changed. -/
def KeepsConsole (s t : State) : Prop := t.inq = s.inq ∧ t.out = s.out

/-- The run state and the parameters are unchanged. -/
def KeepsRun (s t : State) : Prop := t.run = s.run ∧ t.cfg = s.cfg

/-- The memory and waiting input of `t` are those of `s` after one keyboard poll (R148): with a
character waiting it is taken, the data word is its code and the status word 0x8000; otherwise the
status word is 0x0000. -/
def Polled (s t : State) : Prop :=
  match s.inq with
  | [] => t.inq = [] ∧
      ∀ a, t.mem.read a = if a = s.cfg.kbsrAddr then 0x0000 else s.mem.read a
  | c :: rest => t.inq = rest ∧
      ∀ a, t.mem.read a =
        if a = s.cfg.kbdrAddr then BitVec.ofNat 16 c.toNat
        else if a = s.cfg.kbsrAddr then 0x8000 else s.mem.read a

/-- `v` is what a device-aware read of `a` in `s` returns, and the memory and waiting input of `t` are
those the read leaves (R31). -/
def ReadAt (a v : Word) (s t : State) : Prop :=
  v = t.mem.read a ∧ (a = s.cfg.kbsrAddr → Polled s t) ∧
    (a ≠ s.cfg.kbsrAddr → KeepsMem s t ∧ t.inq = s.inq)

/-- What every instruction with a destination register and no memory access leaves: the flags of the
result, and everything else unchanged. -/
def ResultFrame (dr : Reg) (s t : State) : Prop :=
  FlagOf (t.reg dr) t.cond ∧ KeepsRegs [dr] s t ∧ t.pc = s.pc ∧ KeepsMem s t ∧
    KeepsConsole s t ∧ KeepsRun s t

end Sys2Proof.Machine
end

