-- ==== Sys2Proof/Certificates/Slice0/Obligations.lean ====
section
/-! DEFINITION. The statements for the provers. Where a meaning starts from the state after the fetch,
`s` is that state, and `s.pc` the incremented program counter of the spec's pseudocode (R71). -/

open Sys2Proof Sys2Proof.Machine

/-! ## Encoding -/

/-- Decoding the encoder's word of a well-formed instruction gives the instruction back, with every
operand at every value (R55, R60). -/
def Obligations.DecodeEncodeRoundTrip : Prop :=
  ∀ i : Instr, i.wellFormed = true → decode (encode i) = i

/-- Every word decodes to a well-formed instruction, and encoding that instruction gives the word's own
bits back, the ignored bits of R56 excepted. -/
def Obligations.EncodeDecodeKeepsUsedBits : Prop :=
  ∀ w : Word, (decode w).wellFormed = true ∧
    encode (decode w) &&& ~~~ ignoredBits (decode w) = w &&& ~~~ ignoredBits (decode w)

/-- Changing ignored bits does not change what a word decodes to (R56, the spec's decision D5;
assumption 14); for RTI and RES, which keep their ignored bits for the recorded cause, the effect
differs in that cause alone. -/
def Obligations.IgnoredBitsHaveNoEffect : Prop :=
  (∀ w m : Word, decode (w ^^^ (m &&& ignoredBits (decode w))) = decode w) ∧
  (∀ (a b : BitVec 12) (s : State), ∃ t u, exec (.rti a) s = .next t ∧ exec (.rti b) s = .next u ∧
    u = { t with run := u.run } ∧ t.failed ∧ u.failed) ∧
  ∀ (a b : BitVec 12) (s : State), ∃ t u, exec (.res a) s = .next t ∧ exec (.res b) s = .next u ∧
    u = { t with run := u.run } ∧ t.failed ∧ u.failed

/-- R55: a word is a form exactly when it matches the row's mask, and its fields are the row's; the last
row is tried only after the six recognised vectors. The opcode numbers are the spec's decision D1
(assumption 2). -/
def Obligations.RowsSelectTheInstruction : Prop :=
  ∀ w : Word,
    (w &&& 0xF000 = 0x0000 ↔ decode w = .br w[11] w[10] w[9] (field w 0 9)) ∧
    (w &&& 0xF020 = 0x1000 ↔ decode w = .addReg (regField w 9) (regField w 6) (regField w 0)) ∧
    (w &&& 0xF020 = 0x1020 ↔ decode w = .addImm (regField w 9) (regField w 6) (field w 0 5)) ∧
    (w &&& 0xF000 = 0x2000 ↔ decode w = .ld (regField w 9) (field w 0 9)) ∧
    (w &&& 0xF000 = 0x3000 ↔ decode w = .st (regField w 9) (field w 0 9)) ∧
    (w &&& 0xF800 = 0x4800 ↔ decode w = .jsr (field w 0 11)) ∧
    (w &&& 0xF800 = 0x4000 ↔ decode w = .jsrr (regField w 6)) ∧
    (w &&& 0xF020 = 0x5000 ↔ decode w = .andReg (regField w 9) (regField w 6) (regField w 0)) ∧
    (w &&& 0xF020 = 0x5020 ↔ decode w = .andImm (regField w 9) (regField w 6) (field w 0 5)) ∧
    (w &&& 0xF000 = 0x6000 ↔ decode w = .ldr (regField w 9) (regField w 6) (field w 0 6)) ∧
    (w &&& 0xF000 = 0x7000 ↔ decode w = .str (regField w 9) (regField w 6) (field w 0 6)) ∧
    (w &&& 0xF000 = 0x8000 ↔ decode w = .rti (field w 0 12)) ∧
    (w &&& 0xF000 = 0x9000 ↔ decode w = .not (regField w 9) (regField w 6)) ∧
    (w &&& 0xF000 = 0xA000 ↔ decode w = .ldi (regField w 9) (field w 0 9)) ∧
    (w &&& 0xF000 = 0xB000 ↔ decode w = .sti (regField w 9) (field w 0 9)) ∧
    (w &&& 0xF000 = 0xC000 ↔ decode w = .jmp (regField w 6)) ∧
    (w &&& 0xF000 = 0xD000 ↔ decode w = .res (field w 0 12)) ∧
    (w &&& 0xF000 = 0xE000 ↔ decode w = .lea (regField w 9) (field w 0 9)) ∧
    (w &&& 0xF0FF = 0xF020 ↔ decode w = .trapGetc) ∧
    (w &&& 0xF0FF = 0xF021 ↔ decode w = .trapOut) ∧
    (w &&& 0xF0FF = 0xF022 ↔ decode w = .trapPuts) ∧
    (w &&& 0xF0FF = 0xF023 ↔ decode w = .trapIn) ∧
    (w &&& 0xF0FF = 0xF024 ↔ decode w = .trapPutsp) ∧
    (w &&& 0xF0FF = 0xF025 ↔ decode w = .trapHalt) ∧
    (w &&& 0xF000 = 0xF000 ∧ recognisedVector (field w 0 8) = false ↔
      decode w = .trapOther (field w 0 8))

/-- R57: executing a word while RUNNING is a fatal decode error exactly for the words listed. That a fatal
decode error is a next state in the run state ABORTED is R140, by the spec's decision D6
(assumption 17); the opcode numbers are decision D1 (assumption 2). -/
def Obligations.IllegalWordsExactlyAbort : Prop :=
  ∀ (w : Word) (s : State), s.run = .running →
    ((∃ t, exec (decode w) s = .next t ∧ t.failed) ↔ illegalWord w)

/-- R58: the words 0x0000 to 0x01FF change nothing but `pc`. -/
def Obligations.EmptyMaskBranchIsNoOperation : Prop :=
  ∀ (w : Word) (s : State), w.toNat ≤ 0x01FF → exec (decode w) s = .next s

/-- Words written out from the patterns of R55 decode to the instructions they stand for (sanity). -/
def Obligations.SampleWordsDecode : Prop :=
  decode 0x03FD = .br false false true 0x1FD ∧ decode 0x14DC = .addReg .r2 .r3 .r4 ∧
  decode 0x1063 = .addImm .r0 .r1 3 ∧ decode 0x2207 = .ld .r1 7 ∧ decode 0x41C0 = .jsrr .r7 ∧
  decode 0x4803 = .jsr 3 ∧ decode 0x7785 = .str .r3 .r6 5 ∧ decode 0x9240 = .not .r1 .r1 ∧
  decode 0xB206 = .sti .r1 6 ∧ decode 0xC1C0 = .jmp .r7 ∧ decode 0xDFFF = .res 0xFFF ∧
  decode 0xFF21 = .trapOut ∧ decode 0xF0FF = .trapOther 0xFF

/-! ## Operands, flags and memory -/

/-- R204: sign extension of a field of 1 to 16 bits, with the source document's two examples. -/
def Obligations.SignExtensionReplicatesTheSignBit : Prop :=
  (∀ n : Nat, 1 ≤ n → n ≤ 16 → ∀ v : BitVec n,
    (sext v).toNat = if v.getLsbD (n - 1) then v.toNat + 65536 - 2 ^ n else v.toNat) ∧
  sext 0b10000#5 = 0xFFF0 ∧ sext 0b01111#5 = 0x000F

/-- R107: the four addressing modes, every sum modulo 2^16, and JSR's target. The indirect form's address
is the word a device-aware read of the PC-relative address returns (R31), whose keyboard poll is R148
with the spec's decisions D8, D10 and D11 (assumptions 10, 11). -/
def Obligations.EffectiveAddressesWrap : Prop :=
  (∀ off s, AddrSum (pcRelative9 off s) s.pc off.toInt) ∧
  (∀ off s, AddrSum (pcRelative11 off s) s.pc off.toInt) ∧
  (∀ base off s, AddrSum (baseOffset6 base off s) (s.reg base) off.toInt) ∧
  ∀ off s, ReadAt (pcRelative9 off s) (indirect9 off s).1 s (indirect9 off s).2

/-- R17: `setcc` writes exactly the classification of the register's value, and nothing else. -/
def Obligations.SetccClassifiesTheRegister : Prop :=
  ∀ (r : Reg) (s : State), FlagOf (s.reg r) (setcc r s).cond ∧
    setcc r s = { s with cond := (setcc r s).cond }

/-- R148, with the spec's decisions D8, D10 and D11 (assumptions 10, 11): the keyboard poll, which a
device-aware read performs when, and only when, its address is `KBSR_ADDR`, and which changes nothing
but the two device words and the waiting input. -/
def Obligations.KeyboardPollUpdatesDeviceWords : Prop :=
  (∀ s, Polled s (kbdPoll s) ∧
    kbdPoll s = { s with mem := (kbdPoll s).mem, inq := (kbdPoll s).inq }) ∧
  (∀ s, (memRead s.cfg.kbsrAddr s).2 = kbdPoll s) ∧
  ∀ a s, a ≠ s.cfg.kbsrAddr → (memRead a s).2 = s

/-- R31: a device-aware read of any address returns the word after the poll, and only a read of
`KBSR_ADDR` changes anything. -/
def Obligations.DeviceAwareReadReturnsTheWord : Prop :=
  ∀ a s, ReadAt a (memRead a s).1 s (memRead a s).2 ∧
    (memRead a s).2 = { s with mem := (memRead a s).2.mem, inq := (memRead a s).2.inq }

/-- R149: with distinct device addresses, a read of `KBSR_ADDR` returns 0x8000 if a character waits, and
0x0000 if none does; a read of `KBDR_ADDR` after it returns the character, and changes nothing. -/
def Obligations.StatusThenDataReadGivesTheCharacter : Prop :=
  ∀ s : State, s.cfg.wf = true →
    (s.inq = [] → (memRead s.cfg.kbsrAddr s).1 = 0x0000) ∧
    ∀ c rest, s.inq = c :: rest →
      (memRead s.cfg.kbsrAddr s).1 = 0x8000 ∧
      memRead s.cfg.kbdrAddr (memRead s.cfg.kbsrAddr s).2 =
        (BitVec.ofNat 16 c.toNat, (memRead s.cfg.kbsrAddr s).2)

/-- Memories in canonical form that read the same everywhere are the same data (the model's own
representation, assumption 3). -/
def Obligations.CanonicalMemoryIsExtensional : Prop :=
  ∀ m m' : Memory, m.wf = true → m'.wf = true → (∀ a, m.read a = m'.read a) → m = m'

/-! ## Operate instructions -/

/-- R80. -/
def Obligations.AddRegisterResult : Prop :=
  DecodesTo 0xF020 0x1000 (fun w => .addReg (regField w 9) (regField w 6) (regField w 0)) ∧
  ∀ dr sr1 sr2 s, ∃ t, exec (.addReg dr sr1 sr2) s = .next t ∧
    (t.reg dr).toNat = ((s.reg sr1).toNat + (s.reg sr2).toNat) % 65536 ∧ ResultFrame dr s t

/-- R81. -/
def Obligations.AddImmediateResult : Prop :=
  DecodesTo 0xF020 0x1020 (fun w => .addImm (regField w 9) (regField w 6) (field w 0 5)) ∧
  ∀ dr sr1 imm5 s, ∃ t, exec (.addImm dr sr1 imm5) s = .next t ∧
    AddrSum (t.reg dr) (s.reg sr1) imm5.toInt ∧ ResultFrame dr s t

/-- R82. -/
def Obligations.AndRegisterResult : Prop :=
  DecodesTo 0xF020 0x5000 (fun w => .andReg (regField w 9) (regField w 6) (regField w 0)) ∧
  ∀ dr sr1 sr2 s, ∃ t, exec (.andReg dr sr1 sr2) s = .next t ∧
    (∀ k : Nat, (t.reg dr).getLsbD k = ((s.reg sr1).getLsbD k && (s.reg sr2).getLsbD k)) ∧
    ResultFrame dr s t

/-- R83: bit `k` of the sign-extended immediate is its own bit `k`, and its bit 4 from there up. -/
def Obligations.AndImmediateResult : Prop :=
  DecodesTo 0xF020 0x5020 (fun w => .andImm (regField w 9) (regField w 6) (field w 0 5)) ∧
  ∀ dr sr1 imm5 s, ∃ t, exec (.andImm dr sr1 imm5) s = .next t ∧
    (∀ k : Nat, (t.reg dr).getLsbD k = ((s.reg sr1).getLsbD k && imm5.getLsbD (min k 4))) ∧
    ResultFrame dr s t

/-- R84. -/
def Obligations.NotResult : Prop :=
  DecodesTo 0xF000 0x9000 (fun w => .not (regField w 9) (regField w 6)) ∧
  ∀ dr sr s, ∃ t, exec (.not dr sr) s = .next t ∧
    (t.reg dr).toNat = 65535 - (s.reg sr).toNat ∧ ResultFrame dr s t

/-! ## Data movement -/

/-- R100. -/
def Obligations.LoadResult : Prop :=
  DecodesTo 0xF000 0x2000 (fun w => .ld (regField w 9) (field w 0 9)) ∧
  ∀ dr off9 s, AddrSum (pcRelative9 off9 s) s.pc off9.toInt ∧
    ∃ t, exec (.ld dr off9) s = .next t ∧
      ReadAt (pcRelative9 off9 s) (t.reg dr) s t ∧ FlagOf (t.reg dr) t.cond ∧
      KeepsRegs [dr] s t ∧ t.pc = s.pc ∧ t.out = s.out ∧ KeepsRun s t

/-- R101: two device-aware reads in order, the pointer `p` first; `u` holds the memory and waiting input
between them. -/
def Obligations.LoadIndirectResult : Prop :=
  DecodesTo 0xF000 0xA000 (fun w => .ldi (regField w 9) (field w 0 9)) ∧
  ∀ dr off9 s, AddrSum (pcRelative9 off9 s) s.pc off9.toInt ∧
    ∃ t u p, exec (.ldi dr off9) s = .next t ∧
      ReadAt (pcRelative9 off9 s) p s u ∧ u.cfg = s.cfg ∧ ReadAt p (t.reg dr) u t ∧
      FlagOf (t.reg dr) t.cond ∧ KeepsRegs [dr] s t ∧ t.pc = s.pc ∧ t.out = s.out ∧ KeepsRun s t

/-- R102: the address is formed from the base before the destination is written. -/
def Obligations.LoadBaseOffsetResult : Prop :=
  DecodesTo 0xF000 0x6000 (fun w => .ldr (regField w 9) (regField w 6) (field w 0 6)) ∧
  ∀ dr base off6 s, AddrSum (baseOffset6 base off6 s) (s.reg base) off6.toInt ∧
    ∃ t, exec (.ldr dr base off6) s = .next t ∧
      ReadAt (baseOffset6 base off6 s) (t.reg dr) s t ∧ FlagOf (t.reg dr) t.cond ∧
      KeepsRegs [dr] s t ∧ t.pc = s.pc ∧ t.out = s.out ∧ KeepsRun s t

/-- R103: the address is the result, the flags are set from it, and no memory is accessed. -/
def Obligations.LoadEffectiveAddressResult : Prop :=
  DecodesTo 0xF000 0xE000 (fun w => .lea (regField w 9) (field w 0 9)) ∧
  ∀ dr off9 s, ∃ t, exec (.lea dr off9) s = .next t ∧
    AddrSum (t.reg dr) s.pc off9.toInt ∧ ResultFrame dr s t

/-- R104. -/
def Obligations.StoreResult : Prop :=
  DecodesTo 0xF000 0x3000 (fun w => .st (regField w 9) (field w 0 9)) ∧
  ∀ sr off9 s, AddrSum (pcRelative9 off9 s) s.pc off9.toInt ∧
    ∃ t, exec (.st sr off9) s = .next t ∧
      (∀ a, t.mem.read a = if a = pcRelative9 off9 s then s.reg sr else s.mem.read a) ∧
      KeepsRegs [] s t ∧ t.cond = s.cond ∧ t.pc = s.pc ∧ KeepsConsole s t ∧ KeepsRun s t

/-- R105: the device-aware pointer read comes first, and the store goes to the word it returned. -/
def Obligations.StoreIndirectResult : Prop :=
  DecodesTo 0xF000 0xB000 (fun w => .sti (regField w 9) (field w 0 9)) ∧
  ∀ sr off9 s, AddrSum (pcRelative9 off9 s) s.pc off9.toInt ∧
    ReadAt (pcRelative9 off9 s) (indirect9 off9 s).1 s (indirect9 off9 s).2 ∧
    ∃ t, exec (.sti sr off9) s = .next t ∧
      (∀ a, t.mem.read a =
        if a = (indirect9 off9 s).1 then s.reg sr else (indirect9 off9 s).2.mem.read a) ∧
      t.inq = (indirect9 off9 s).2.inq ∧ KeepsRegs [] s t ∧ t.cond = s.cond ∧ t.pc = s.pc ∧
      t.out = s.out ∧ KeepsRun s t

/-- R106. -/
def Obligations.StoreBaseOffsetResult : Prop :=
  DecodesTo 0xF000 0x7000 (fun w => .str (regField w 9) (regField w 6) (field w 0 6)) ∧
  ∀ sr base off6 s, AddrSum (baseOffset6 base off6 s) (s.reg base) off6.toInt ∧
    ∃ t, exec (.str sr base off6) s = .next t ∧
      (∀ a, t.mem.read a = if a = baseOffset6 base off6 s then s.reg sr else s.mem.read a) ∧
      KeepsRegs [] s t ∧ t.cond = s.cond ∧ t.pc = s.pc ∧ KeepsConsole s t ∧ KeepsRun s t

/-! ## Control transfer -/

/-- R90: taken exactly when a mask bit pairs with the flag that `cond` holds. The pairing is the spec's
decision D2 (assumption 2). -/
def Obligations.BranchTarget : Prop :=
  DecodesTo 0xF000 0x0000 (fun w => .br w[11] w[10] w[9] (field w 0 9)) ∧
  ∀ n z p off9 s, ∃ t, exec (.br n z p off9) s = .next t ∧
    (((n = true ∧ s.cond = .n) ∨ (z = true ∧ s.cond = .z) ∨ (p = true ∧ s.cond = .p)) →
      AddrSum t.pc s.pc off9.toInt) ∧
    (¬ ((n = true ∧ s.cond = .n) ∨ (z = true ∧ s.cond = .z) ∨ (p = true ∧ s.cond = .p)) →
      t.pc = s.pc) ∧
    KeepsRegs [] s t ∧ t.cond = s.cond ∧ KeepsMem s t ∧ KeepsConsole s t ∧ KeepsRun s t

/-- R92. -/
def Obligations.JumpTarget : Prop :=
  DecodesTo 0xF000 0xC000 (fun w => .jmp (regField w 6)) ∧
  ∀ base s, ∃ t, exec (.jmp base) s = .next t ∧ t.pc = s.reg base ∧
    KeepsRegs [] s t ∧ t.cond = s.cond ∧ KeepsMem s t ∧ KeepsConsole s t ∧ KeepsRun s t

/-- R93. -/
def Obligations.SubroutineCallLinks : Prop :=
  DecodesTo 0xF800 0x4800 (fun w => .jsr (field w 0 11)) ∧
  ∀ off11 s, ∃ t, exec (.jsr off11) s = .next t ∧ t.reg .r7 = s.pc ∧
    AddrSum t.pc s.pc off11.toInt ∧
    KeepsRegs [.r7] s t ∧ t.cond = s.cond ∧ KeepsMem s t ∧ KeepsConsole s t ∧ KeepsRun s t

/-- R94, in the order of the spec's decision D7 (assumption 9): with BaseR = 7 the link has overwritten the
base, so control falls through. -/
def Obligations.RegisterCallLinksFirst : Prop :=
  DecodesTo 0xF800 0x4000 (fun w => .jsrr (regField w 6)) ∧
  ∀ base s, ∃ t, exec (.jsrr base) s = .next t ∧ t.reg .r7 = s.pc ∧
    (base ≠ .r7 → t.pc = s.reg base) ∧ (base = .r7 → t.pc = s.pc) ∧
    KeepsRegs [.r7] s t ∧ t.cond = s.cond ∧ KeepsMem s t ∧ KeepsConsole s t ∧ KeepsRun s t

/-! ## The trap routines and the fatal decode error -/

/-- R123, the character zero-extended by the spec's decision D8 (assumption 10): with a character waiting
GETC takes it. With none the step is held; that this is a next state with `pc` back at the
instruction, everything else as before the fetch, is the model's choice (assumption 6). -/
def Obligations.GetcReadsOneCharacter : Prop :=
  DecodesTo 0xF0FF 0xF020 (fun _ => .trapGetc) ∧
  (∀ s c rest, s.inq = c :: rest → ∃ t, exec .trapGetc s = .next t ∧
    t.reg .r7 = s.pc ∧ (t.reg .r0).toNat = c.toNat ∧ t.inq = rest ∧
    FlagOf (t.reg .r0) t.cond ∧ t.cond ≠ .n ∧
    KeepsRegs [.r0, .r7] s t ∧ t.pc = s.pc ∧ KeepsMem s t ∧ t.out = s.out ∧ KeepsRun s t) ∧
  ∀ s, s.inq = [] → exec .trapGetc s = .next { s with pc := s.pc - 1 }

/-- R124. -/
def Obligations.OutWritesLowByte : Prop :=
  DecodesTo 0xF0FF 0xF021 (fun _ => .trapOut) ∧
  ∀ s, ∃ t, exec .trapOut s = .next t ∧ t.reg .r7 = s.pc ∧
    t.out = s.out ++ [BitVec.ofNat 8 (s.reg .r0).toNat] ∧
    KeepsRegs [.r7] s t ∧ t.cond = s.cond ∧ t.pc = s.pc ∧ KeepsMem s t ∧ t.inq = s.inq ∧
    KeepsRun s t

/-- R126, with the wrap and the plain reads of the spec's decision D12 (assumption 12): if some word of
memory is zero, PUTS writes the low byte of each word before the first zero word at or after
`x[0]`, wrapping; if none is, no step completes. -/
def Obligations.PutsWritesUpToTheZeroWord : Prop :=
  DecodesTo 0xF0FF 0xF022 (fun _ => .trapPuts) ∧
  (∀ s, (∃ a, s.mem.read a = 0) →
    ∃ t k, k < 65536 ∧ s.mem.read (s.reg .r0 + BitVec.ofNat 16 k) = 0 ∧
      (∀ i < k, s.mem.read (s.reg .r0 + BitVec.ofNat 16 i) ≠ 0) ∧
      exec .trapPuts s = .next t ∧ t.reg .r7 = s.pc ∧
      t.out = s.out ++ (List.range k).map
        (fun i => BitVec.ofNat 8 (s.mem.read (s.reg .r0 + BitVec.ofNat 16 i)).toNat) ∧
      KeepsRegs [.r7] s t ∧ t.cond = s.cond ∧ t.pc = s.pc ∧ KeepsMem s t ∧ t.inq = s.inq ∧
      KeepsRun s t) ∧
  ∀ s, (∀ a, s.mem.read a ≠ 0) → ∀ t, exec .trapPuts s ≠ .next t

/-- R127, with the spec's decisions D8 and D23 (assumptions 6, 10): the prompt, whatever its text, then one
character taken and echoed. With none waiting the whole step is held; that this is a next state with
`pc` back at the instruction is the model's choice (assumption 6). -/
def Obligations.InPromptsReadsAndEchoes : Prop :=
  DecodesTo 0xF0FF 0xF023 (fun _ => .trapIn) ∧
  (∀ s c rest, s.inq = c :: rest → ∃ t, exec .trapIn s = .next t ∧
    t.reg .r7 = s.pc ∧ (t.reg .r0).toNat = c.toNat ∧ t.inq = rest ∧
    t.out = s.out ++ s.cfg.inPrompt ++ [c] ∧ FlagOf (t.reg .r0) t.cond ∧ t.cond ≠ .n ∧
    KeepsRegs [.r0, .r7] s t ∧ t.pc = s.pc ∧ KeepsMem s t ∧ KeepsRun s t) ∧
  ∀ s, s.inq = [] → exec .trapIn s = .next { s with pc := s.pc - 1 }

/-- R128, with the spec's decisions D12 and D22 (assumption 12): as PUTS, with the low byte of each word
and then its high byte if that is not zero. -/
def Obligations.PutspWritesPackedCharacters : Prop :=
  DecodesTo 0xF0FF 0xF024 (fun _ => .trapPutsp) ∧
  (∀ s, (∃ a, s.mem.read a = 0) →
    ∃ t k, k < 65536 ∧ s.mem.read (s.reg .r0 + BitVec.ofNat 16 k) = 0 ∧
      (∀ i < k, s.mem.read (s.reg .r0 + BitVec.ofNat 16 i) ≠ 0) ∧
      exec .trapPutsp s = .next t ∧ t.reg .r7 = s.pc ∧
      t.out = s.out ++ (List.range k).flatMap (fun i =>
        let w := s.mem.read (s.reg .r0 + BitVec.ofNat 16 i)
        if w.toNat < 256 then [BitVec.ofNat 8 w.toNat]
        else [BitVec.ofNat 8 w.toNat, BitVec.ofNat 8 (w.toNat / 256)]) ∧
      KeepsRegs [.r7] s t ∧ t.cond = s.cond ∧ t.pc = s.pc ∧ KeepsMem s t ∧ t.inq = s.inq ∧
      KeepsRun s t) ∧
  ∀ s, (∀ a, s.mem.read a ≠ 0) → ∀ t, exec .trapPutsp s ≠ .next t

/-- A string walk that never ends is refused by name (the model's choice among those the spec allows,
assumption 8). -/
def Obligations.UnterminatedStringIsRefused : Prop :=
  ∀ s, (∀ a, s.mem.read a ≠ 0) →
    exec .trapPuts s = .refused .unterminatedString ∧
    exec .trapPutsp s = .refused .unterminatedString

/-- R129, whatever the announcement's text. -/
def Obligations.HaltAnnouncesAndHalts : Prop :=
  DecodesTo 0xF0FF 0xF025 (fun _ => .trapHalt) ∧
  ∀ s, ∃ t, exec .trapHalt s = .next t ∧ t.reg .r7 = s.pc ∧ t.run = .halted ∧
    t.out = s.out ++ s.cfg.haltMsg ∧
    KeepsRegs [.r7] s t ∧ t.cond = s.cond ∧ t.pc = s.pc ∧ KeepsMem s t ∧ t.inq = s.inq ∧
    t.cfg = s.cfg

/-- R130, by the spec's decision D6 (assumption 17): the link is written, and the machine aborts with the
vector recorded. -/
def Obligations.BadTrapVectorAborts : Prop :=
  (∀ w : Word, w &&& 0xF000 = 0xF000 → recognisedVector (field w 0 8) = false →
    decode w = .trapOther (field w 0 8)) ∧
  ∀ vect s, ∃ t, exec (.trapOther vect) s = .next t ∧ t.reg .r7 = s.pc ∧
    t.run = .aborted (.badTrapVector vect) ∧
    KeepsRegs [.r7] s t ∧ t.cond = s.cond ∧ t.pc = s.pc ∧ KeepsMem s t ∧ KeepsConsole s t ∧
    t.cfg = s.cfg

/-- R131, by the spec's decision D6 (assumption 17): RTI aborts with the instruction word recorded,
and changes nothing else. -/
def Obligations.RtiAborts : Prop :=
  DecodesTo 0xF000 0x8000 (fun w => .rti (field w 0 12)) ∧
  ∀ low12 s, ∃ t, exec (.rti low12) s = .next t ∧
    t.run = .aborted (.illegalOpcode (BitVec.ofNat 16 (0x8000 + low12.toNat))) ∧
    KeepsRegs [] s t ∧ t.cond = s.cond ∧ t.pc = s.pc ∧ KeepsMem s t ∧ KeepsConsole s t ∧
    t.cfg = s.cfg

/-- R132, by the spec's decision D6 (assumption 17): RES aborts with the instruction word recorded,
and changes nothing else. -/
def Obligations.ResAborts : Prop :=
  DecodesTo 0xF000 0xD000 (fun w => .res (field w 0 12)) ∧
  ∀ low12 s, ∃ t, exec (.res low12) s = .next t ∧
    t.run = .aborted (.illegalOpcode (BitVec.ofNat 16 (0xD000 + low12.toNat))) ∧
    KeepsRegs [] s t ∧ t.cond = s.cond ∧ t.pc = s.pc ∧ KeepsMem s t ∧ KeepsConsole s t ∧
    t.cfg = s.cfg

/-! ## The whole machine -/

/-- R71, the fetch being device-aware by the spec's decision D14 (assumption 13): while RUNNING a step is a
device-aware read at `pc`, the increment of `pc`, and the execution of the word read. Away from
`KBSR_ADDR` that word is the stored one; at `KBSR_ADDR` it is the status word the poll leaves. -/
def Obligations.StepExecutesTheFetchedWord : Prop :=
  (∀ s : State, s.run = .running →
    step s = exec (decode (memRead s.pc s).1) { (memRead s.pc s).2 with pc := s.pc + 1 }) ∧
  (∀ s : State, s.run = .running → s.pc ≠ s.cfg.kbsrAddr →
    step s = exec (decode (s.mem.read s.pc)) { s with pc := s.pc + 1 }) ∧
  ∀ s : State, s.run = .running → s.cfg.wf = true → s.pc = s.cfg.kbsrAddr →
    step s = exec (decode (if s.inq = [] then 0x0000 else 0x8000))
      { kbdPoll s with pc := s.pc + 1 }

/-- R14, its derived table: how each instruction leaves `pc`, from the state before the fetch. A held GETC
or IN has not begun (R73) and is not in the table. -/
def Obligations.StepLeavesPcByTheTable : Prop :=
  ∀ s t : State, s.run = .running → step s = .next t →
    ¬ held (decode (fetch s).1) (fetch s).2 →
    match decode (fetch s).1 with
    | .br n z p off9 =>
      if branchTaken n z p s.cond then AddrSum t.pc s.pc (1 + off9.toInt) else AddrSum t.pc s.pc 1
    | .jmp base => t.pc = s.reg base
    | .jsr off11 => AddrSum t.pc s.pc (1 + off11.toInt)
    | .jsrr base => if base = .r7 then AddrSum t.pc s.pc 1 else t.pc = s.reg base
    | .rti _ => AddrSum t.pc s.pc 1 ∧ t.failed
    | .res _ => AddrSum t.pc s.pc 1 ∧ t.failed
    | .trapOther _ => AddrSum t.pc s.pc 1 ∧ t.failed
    | _ => AddrSum t.pc s.pc 1

/-- R18: a step that executes an instruction sets the flags from the destination register for the listed
instructions, and leaves them alone for every other. A held GETC or IN has not begun (R73). -/
def Obligations.StepWritesFlagsOnlyForListed : Prop :=
  ∀ s t : State, s.run = .running → step s = .next t →
    ¬ held (decode (fetch s).1) (fetch s).2 →
    match flagReg (decode (fetch s).1) with
    | some r => FlagOf (t.reg r) t.cond
    | none => t.cond = s.cond

/-- R12: a step changes no general register but the destination, and R7 and R0 in their listed roles. -/
def Obligations.StepWritesOnlyNamedRegisters : Prop :=
  ∀ s t : State, s.run = .running → step s = .next t →
    KeepsRegs (writtenRegs (decode (fetch s).1)) s t

/-- R39, R44: a step changes a word of memory only by its store, or as one of the two device words. -/
def Obligations.StepChangesMemoryOnlyByStoreOrPoll : Prop :=
  ∀ s t : State, s.run = .running → step s = .next t → ∀ a,
    a ≠ s.cfg.kbsrAddr → a ≠ s.cfg.kbdrAddr →
    storedAddress (decode (fetch s).1) (fetch s).2 ≠ some a → t.mem.read a = s.mem.read a

/-- R19: `run` becomes HALTED only by the HALT routine, ABORTED only by an illegal word, and a step of any
other word leaves the machine RUNNING. The run state ABORTED is R19 and R140 by the spec's decision D6
(assumption 17); the illegal words are R57's. -/
def Obligations.RunEndsOnlyByHaltOrIllegalWord : Prop :=
  ∀ s t : State, s.run = .running → step s = .next t →
    (t.run = .halted ↔ decode (fetch s).1 = .trapHalt) ∧
    (t.failed ↔ illegalWord (fetch s).1) ∧
    (t.run = .running ↔ decode (fetch s).1 ≠ .trapHalt ∧ ¬ illegalWord (fetch s).1)

/-- A HALTED machine idles unchanged, and an ABORTED one answers the recorded cause as its fault: no state
of either changes again (the form of the answer is the model's choice, assumption 5). -/
def Obligations.TerminalStatesDoNotChange : Prop :=
  (∀ s : State, s.run = .halted → step s = .next s) ∧
  ∀ (s : State) c, s.run = .aborted c → step s = .fault (.aborted c)

/-- R73, R142: while RUNNING every step answers a next state, whatever the word and the operands, but for a
string routine on a memory with no zero word (R126, R128; assumption 8). That an illegal word's step answers one, in
the run state ABORTED, is the spec's decision D6 (assumption 17); that a held GETC or IN answers one,
with the state it had, is the model's choice (assumption 6). -/
def Obligations.StepCompletesUnlessStringIsEndless : Prop :=
  ∀ s : State, s.run = .running →
    ((∃ t, step s = .next t) ↔
      ¬ ((decode (fetch s).1 = .trapPuts ∨ decode (fetch s).1 = .trapPutsp) ∧
        ∀ a, (fetch s).2.mem.read a ≠ 0))

/-- R141, by the spec's decision D6 (assumption 17): the state a fatal decode error leaves, from the
state before the fetch; the machine then answers a fault (assumption 5). The poll of a fetch at
`KBSR_ADDR` is R71 by decision D14 (assumption 13) and R148 by decisions D8, D10 and D11
(assumptions 10, 11). -/
def Obligations.AbortLeavesTheExactState : Prop :=
  ∀ (s t : State) (c : AbortCause), s.run = .running → step s = .next t → t.run = .aborted c →
    AddrSum t.pc s.pc 1 ∧
    (∀ v, c = .badTrapVector v → t.reg .r7 = t.pc ∧ KeepsRegs [.r7] s t) ∧
    (∀ w, c = .illegalOpcode w → KeepsRegs [] s t) ∧
    t.cond = s.cond ∧ t.out = s.out ∧ t.cfg = s.cfg ∧
    (s.pc ≠ s.cfg.kbsrAddr → KeepsMem s t ∧ t.inq = s.inq) ∧
    (s.pc = s.cfg.kbsrAddr → Polled s t) ∧
    step t = .fault (.aborted c)

/-- R73, R157, by the spec's decisions D8 and D23 (assumption 10): a GETC or IN step with no character waiting leaves the whole state
as it was before the fetch (as a next state, the model's choice, assumption 6), and is enabled once
the host appends one. -/
def Obligations.HeldStepWaitsForInput : Prop :=
  ∀ s : State, s.run = .running → held (decode (fetch s).1) s →
    step s = .next s ∧
    ∀ c cs, ∃ t, step (supplyInput (c :: cs) s) = .next t ∧ t.inq = cs ∧
      (t.reg .r0).toNat = c.toNat

/-- R153, with the streams of the spec's decision D9 (assumption 11): a step only appends to the output,
only takes characters from the front of the input, and never changes the parameters (assumption 1). -/
def Obligations.StepAppendsOutputAndTakesInput : Prop :=
  ∀ s t : State, step s = .next t → s.out <+: t.out ∧ t.inq <:+ s.inq ∧ t.cfg = s.cfg

/-- Characters the host appends behind two or more waiting ones are invisible to the step: it does what it
would have done without them, and leaves them waiting. The one queue is the spec's decision D9
(assumption 11). -/
def Obligations.LaterInputDoesNotAffectTheStep : Prop :=
  ∀ (s t : State) (cs : List Byte), 2 ≤ s.inq.length → step s = .next t →
    step (supplyInput cs s) = .next (supplyInput cs t)

/-- R42: a store into the word after the storing instruction is what the next step fetches. -/
def Obligations.StoreIsSeenByTheNextFetch : Prop :=
  ∀ (s : State) (sr : Reg), s.run = .running →
    s.pc ≠ s.cfg.kbsrAddr → s.pc + 1 ≠ s.cfg.kbsrAddr →
    decode (s.mem.read s.pc) = .st sr 0 →
    ∃ t, step s = .next t ∧ t.pc = s.pc + 1 ∧ t.run = .running ∧ (fetch t).1 = s.reg sr

/-- The invariant, which is the model's own (assumptions 3, 19), holds at reset. -/
def Obligations.ResetMeetsTheInvariant : Prop := State.reset.inv

/-- Every step from every state keeps memory canonical (the model's own representation, assumption 3) and
the device addresses distinct (assumption 19). -/
def Obligations.StepKeepsTheInvariant : Prop :=
  ∀ s t : State, s.inv → step s = .next t → t.inv

/-- Every state of every run of every image, the host's input included, meets the invariant and carries
the launch parameters. The invariant is the model's own, canonical memory (assumption 3) and distinct
device addresses (assumption 19), and so is the modelled loader (assumption 15). -/
def Obligations.EveryRunKeepsTheInvariant : Prop :=
  ∀ cfg input image s t, Config.wf cfg = true → boot cfg input image = .ok s → Reachable s t →
    t.inv ∧ t.cfg = cfg

/-! ## Reset and the image -/

/-- R25, the two streams by the spec's decision D9: the state before the first fetch, with the image's words
in memory and zeros elsewhere. -/
def Obligations.BootLeavesTheResetState : Prop :=
  ∀ cfg input image s, boot cfg input image = .ok s →
    (∀ r, s.reg r = 0) ∧ s.pc = 0x3000 ∧ s.cond = .z ∧ s.run = .running ∧ s.out = [] ∧
    s.inq = input ∧ s.cfg = cfg ∧
    ∃ origin ws, imageWords image = some (origin :: ws) ∧
      ∀ a : Word, s.mem.read a = ws.getD (a - origin).toNat 0

/-- R25 at `State.reset` itself: nothing loaded, every word of memory zero. -/
def Obligations.ResetValues : Prop :=
  (∀ r, State.reset.reg r = 0) ∧ State.reset.pc = 0x3000 ∧ State.reset.cond = .z ∧
  State.reset.run = .running ∧ State.reset.out = [] ∧ ∀ a, State.reset.mem.read a = 0

/-- R173, with the spec's decision D16 for what is no image (assumption 15): fewer than two bytes, an odd
number, or words past 0xFFFF have no meaning; otherwise the origin is the first big-endian word and
the others stand from there, and nothing else changes. -/
def Obligations.ImageLoadsBigEndianWords : Prop :=
  ∀ (bytes : List Byte) (s : State),
    let byte := fun i => (bytes.getD i 0).toNat
    let origin := byte 0 * 256 + byte 1
    let n := (bytes.length - 2) / 2
    (bytes.length < 2 → loadImage bytes s = .error .noOrigin) ∧
    (2 ≤ bytes.length → bytes.length % 2 = 1 → loadImage bytes s = .error .oddLength) ∧
    (2 ≤ bytes.length → bytes.length % 2 = 0 → 0x10000 < origin + n →
      loadImage bytes s = .error .overrun) ∧
    (2 ≤ bytes.length → bytes.length % 2 = 0 → origin + n ≤ 0x10000 →
      ∃ t, loadImage bytes s = .ok t ∧ t = { s with mem := t.mem } ∧
        (∀ k < n, (t.mem.read (BitVec.ofNat 16 (origin + k))).toNat =
          byte (2 * k + 2) * 256 + byte (2 * k + 3)) ∧
        ∀ a : Word, a.toNat < origin ∨ origin + n ≤ a.toNat → t.mem.read a = s.mem.read a)

/-- R43: before the first instruction, a device-aware read of a loaded address other than `KBSR_ADDR`
returns the image's word and changes nothing (the rule excepts `KBDR_ADDR` too, which it need not). -/
def Obligations.LoadedWordsReadBack : Prop :=
  ∀ (cfg : Config) (input image : List Byte) (s : State) (origin : Word) (ws : List Word) (k : Nat),
    boot cfg input image = .ok s → imageWords image = some (origin :: ws) → (h : k < ws.length) →
    origin + BitVec.ofNat 16 k ≠ cfg.kbsrAddr →
    memRead (origin + BitVec.ofNat 16 k) s = (ws[k], s)
end

