-- ==== Sys2Proof/Laws/Memory.lean ====
section
/-! SUPPORT. The laws of memory: a read after a write, and that every operation keeps the canonical
form. -/

namespace Sys2Proof.Machine

theorem lookupCell_dropCell (k j : Nat) (l : List Cell) :
    lookupCell k (dropCell j l) = if k = j then 0 else lookupCell k l := by
  induction l with
  | nil => simp [dropCell, lookupCell]
  | cons c rest ih =>
    obtain ⟨i, v⟩ := c
    by_cases hij : i = j
    · subst hij
      rw [dropCell, if_pos rfl, ih]
      by_cases hk : k = i
      · simp [hk]
      · simp [lookupCell, hk, Ne.symm hk]
    · rw [dropCell, if_neg hij, lookupCell, ih]
      by_cases hk : k = j
      · subst hk
        simp [hij]
      · simp [lookupCell, hk]

theorem lookupCell_insertCell (k j : Nat) (w : Word) (l : List Cell) :
    lookupCell k (insertCell j w l) = if k = j then w else lookupCell k l := by
  induction l with
  | nil => simp only [insertCell, lookupCell, eq_comm (a := j)]
  | cons c rest ih =>
    obtain ⟨i, v⟩ := c
    by_cases hij : i < j
    · rw [insertCell, if_pos hij, lookupCell, ih]
      by_cases hk : k = j
      · subst hk
        simp [Nat.ne_of_lt hij]
      · simp [lookupCell, hk]
    · rw [insertCell, if_neg hij, lookupCell]
      simp only [eq_comm (a := j)]

/-- Reading after a write: the written word at the address written, the old word elsewhere. It holds of
every memory, in canonical form or not. -/
@[simp] theorem Memory.read_write (m : Memory) (a v b : Word) :
    (m.write a v).read b = if b = a then v else m.read b := by
  have e : b.toNat = a.toNat ↔ b = a := BitVec.toNat_inj
  by_cases hv : v = 0
  · simp [Memory.write, Memory.read, hv, lookupCell_dropCell, e]
  · simp only [Memory.write, hv, if_false, Memory.read, lookupCell_insertCell,
      lookupCell_dropCell, e]
    by_cases hb : b = a <;> simp [hb]

/-- Empty memory reads as zero everywhere (R25). -/
@[simp] theorem Memory.read_empty (a : Word) : Memory.read ⟨[]⟩ a = 0 := rfl

/-- What the canonical form says of a first entry. -/
theorem cellsWf_cons (lo k : Nat) (v : Word) (rest : List Cell) :
    cellsWf lo ((k, v) :: rest) = true ↔
      lo ≤ k ∧ k < 65536 ∧ v ≠ 0 ∧ cellsWf (k + 1) rest = true := by
  simp [cellsWf, and_assoc]

theorem cellsWf_mono {lo lo' : Nat} (h : lo' ≤ lo) :
    ∀ {l : List Cell}, cellsWf lo l = true → cellsWf lo' l = true
  | [], _ => rfl
  | (_, _) :: _, w => by
    rw [cellsWf_cons] at w ⊢
    exact ⟨h.trans w.1, w.2⟩

theorem cellsWf_dropCell (k : Nat) :
    ∀ {lo : Nat} {l : List Cell}, cellsWf lo l = true → cellsWf lo (dropCell k l) = true
  | _, [], _ => rfl
  | lo, (j, v) :: rest, w => by
    obtain ⟨h1, h2, h3, h4⟩ := (cellsWf_cons ..).mp w
    have ih := cellsWf_dropCell k h4
    by_cases h : j = k
    · rw [dropCell, if_pos h]
      exact cellsWf_mono (by omega) ih
    · rw [dropCell, if_neg h]
      exact (cellsWf_cons ..).mpr ⟨h1, h2, h3, ih⟩

theorem dropCell_no_key (k : Nat) : ∀ l : List Cell, ∀ c ∈ dropCell k l, c.1 ≠ k
  | [] => by simp [dropCell]
  | (j, v) :: rest => by
    have ih := dropCell_no_key k rest
    by_cases h : j = k
    · rwa [dropCell, if_pos h]
    · rw [dropCell, if_neg h]
      simp only [List.mem_cons, forall_eq_or_imp]
      exact ⟨h, ih⟩

theorem cellsWf_insertCell {k : Nat} {w : Word} (hk : k < 65536) (hw : w ≠ 0) :
    ∀ {lo : Nat} {l : List Cell}, lo ≤ k → (∀ c ∈ l, c.1 ≠ k) → cellsWf lo l = true →
      cellsWf lo (insertCell k w l) = true
  | lo, [], hlo, _, _ => (cellsWf_cons ..).mpr ⟨hlo, hk, hw, rfl⟩
  | lo, (j, v) :: rest, hlo, hne, wf => by
    obtain ⟨h1, h2, h3, h4⟩ := (cellsWf_cons ..).mp wf
    by_cases h : j < k
    · rw [insertCell, if_pos h]
      exact (cellsWf_cons ..).mpr ⟨h1, h2, h3,
        cellsWf_insertCell hk hw h (fun c hc => hne c (List.mem_cons_of_mem _ hc)) h4⟩
    · have hjk : j ≠ k := hne (j, v) (List.mem_cons_self ..)
      rw [insertCell, if_neg h]
      exact (cellsWf_cons ..).mpr ⟨hlo, hk, hw,
        (cellsWf_cons ..).mpr ⟨by omega, h2, h3, h4⟩⟩

/-- A write keeps the canonical form. -/
theorem Memory.write_wf {m : Memory} (a v : Word) (h : m.wf = true) : (m.write a v).wf = true := by
  have hd := cellsWf_dropCell a.toNat (lo := 0) (l := m.cells) h
  by_cases hv : v = 0
  · rw [Memory.write, if_pos hv]
    exact hd
  · rw [Memory.write, if_neg hv]
    exact cellsWf_insertCell a.isLt hv (Nat.zero_le _) (dropCell_no_key _ _) hd

/-- Empty memory is in canonical form. -/
theorem Memory.empty_wf : Memory.wf ⟨[]⟩ = true := rfl

/-- Storing an image keeps the canonical form. -/
theorem storeWords_wf (ws : List Word) :
    ∀ {m : Memory} {a : Word}, m.wf = true → (storeWords m a ws).wf = true := by
  induction ws with
  | nil => intro m a h; exact h
  | cons w ws ih => intro m a h; exact ih (Memory.write_wf a w h)

end Sys2Proof.Machine
end

