-- ==== Sys2Proof/Laws/State.lean ====
section
/-! SUPPORT. The small lemmas of the state record: one per field and update, and reading a register
after a write. -/

namespace Sys2Proof.Machine

variable (s : State)

@[simp] theorem State.setReg_gpr (r : Reg) (v : Word) : (s.setReg r v).gpr = s.gpr.set r v := rfl
@[simp] theorem State.setReg_pc (r : Reg) (v : Word) : (s.setReg r v).pc = s.pc := rfl
@[simp] theorem State.setReg_cond (r : Reg) (v : Word) : (s.setReg r v).cond = s.cond := rfl
@[simp] theorem State.setReg_run (r : Reg) (v : Word) : (s.setReg r v).run = s.run := rfl
@[simp] theorem State.setReg_mem (r : Reg) (v : Word) : (s.setReg r v).mem = s.mem := rfl
@[simp] theorem State.setReg_inq (r : Reg) (v : Word) : (s.setReg r v).inq = s.inq := rfl
@[simp] theorem State.setReg_out (r : Reg) (v : Word) : (s.setReg r v).out = s.out := rfl
@[simp] theorem State.setReg_cfg (r : Reg) (v : Word) : (s.setReg r v).cfg = s.cfg := rfl

@[simp] theorem State.setPc_gpr (v : Word) : (s.setPc v).gpr = s.gpr := rfl
@[simp] theorem State.setPc_pc (v : Word) : (s.setPc v).pc = v := rfl
@[simp] theorem State.setPc_cond (v : Word) : (s.setPc v).cond = s.cond := rfl
@[simp] theorem State.setPc_run (v : Word) : (s.setPc v).run = s.run := rfl
@[simp] theorem State.setPc_mem (v : Word) : (s.setPc v).mem = s.mem := rfl
@[simp] theorem State.setPc_inq (v : Word) : (s.setPc v).inq = s.inq := rfl
@[simp] theorem State.setPc_out (v : Word) : (s.setPc v).out = s.out := rfl
@[simp] theorem State.setPc_cfg (v : Word) : (s.setPc v).cfg = s.cfg := rfl
@[simp] theorem State.setPc_reg (v : Word) (q : Reg) : (s.setPc v).reg q = s.reg q := rfl

@[simp] theorem State.setCond_gpr (f : Cond) : (s.setCond f).gpr = s.gpr := rfl
@[simp] theorem State.setCond_pc (f : Cond) : (s.setCond f).pc = s.pc := rfl
@[simp] theorem State.setCond_cond (f : Cond) : (s.setCond f).cond = f := rfl
@[simp] theorem State.setCond_run (f : Cond) : (s.setCond f).run = s.run := rfl
@[simp] theorem State.setCond_mem (f : Cond) : (s.setCond f).mem = s.mem := rfl
@[simp] theorem State.setCond_inq (f : Cond) : (s.setCond f).inq = s.inq := rfl
@[simp] theorem State.setCond_out (f : Cond) : (s.setCond f).out = s.out := rfl
@[simp] theorem State.setCond_cfg (f : Cond) : (s.setCond f).cfg = s.cfg := rfl
@[simp] theorem State.setCond_reg (f : Cond) (q : Reg) : (s.setCond f).reg q = s.reg q := rfl

@[simp] theorem State.setRun_gpr (v : RunState) : (s.setRun v).gpr = s.gpr := rfl
@[simp] theorem State.setRun_pc (v : RunState) : (s.setRun v).pc = s.pc := rfl
@[simp] theorem State.setRun_cond (v : RunState) : (s.setRun v).cond = s.cond := rfl
@[simp] theorem State.setRun_run (v : RunState) : (s.setRun v).run = v := rfl
@[simp] theorem State.setRun_mem (v : RunState) : (s.setRun v).mem = s.mem := rfl
@[simp] theorem State.setRun_inq (v : RunState) : (s.setRun v).inq = s.inq := rfl
@[simp] theorem State.setRun_out (v : RunState) : (s.setRun v).out = s.out := rfl
@[simp] theorem State.setRun_cfg (v : RunState) : (s.setRun v).cfg = s.cfg := rfl
@[simp] theorem State.setRun_reg (v : RunState) (q : Reg) : (s.setRun v).reg q = s.reg q := rfl

@[simp] theorem State.setMem_gpr (m : Memory) : (s.setMem m).gpr = s.gpr := rfl
@[simp] theorem State.setMem_pc (m : Memory) : (s.setMem m).pc = s.pc := rfl
@[simp] theorem State.setMem_cond (m : Memory) : (s.setMem m).cond = s.cond := rfl
@[simp] theorem State.setMem_run (m : Memory) : (s.setMem m).run = s.run := rfl
@[simp] theorem State.setMem_mem (m : Memory) : (s.setMem m).mem = m := rfl
@[simp] theorem State.setMem_inq (m : Memory) : (s.setMem m).inq = s.inq := rfl
@[simp] theorem State.setMem_out (m : Memory) : (s.setMem m).out = s.out := rfl
@[simp] theorem State.setMem_cfg (m : Memory) : (s.setMem m).cfg = s.cfg := rfl
@[simp] theorem State.setMem_reg (m : Memory) (q : Reg) : (s.setMem m).reg q = s.reg q := rfl

@[simp] theorem State.setInq_gpr (q : List Byte) : (s.setInq q).gpr = s.gpr := rfl
@[simp] theorem State.setInq_pc (q : List Byte) : (s.setInq q).pc = s.pc := rfl
@[simp] theorem State.setInq_cond (q : List Byte) : (s.setInq q).cond = s.cond := rfl
@[simp] theorem State.setInq_run (q : List Byte) : (s.setInq q).run = s.run := rfl
@[simp] theorem State.setInq_mem (q : List Byte) : (s.setInq q).mem = s.mem := rfl
@[simp] theorem State.setInq_inq (q : List Byte) : (s.setInq q).inq = q := rfl
@[simp] theorem State.setInq_out (q : List Byte) : (s.setInq q).out = s.out := rfl
@[simp] theorem State.setInq_cfg (q : List Byte) : (s.setInq q).cfg = s.cfg := rfl
@[simp] theorem State.setInq_reg (q : List Byte) (r : Reg) : (s.setInq q).reg r = s.reg r := rfl

@[simp] theorem State.setOut_gpr (o : List Byte) : (s.setOut o).gpr = s.gpr := rfl
@[simp] theorem State.setOut_pc (o : List Byte) : (s.setOut o).pc = s.pc := rfl
@[simp] theorem State.setOut_cond (o : List Byte) : (s.setOut o).cond = s.cond := rfl
@[simp] theorem State.setOut_run (o : List Byte) : (s.setOut o).run = s.run := rfl
@[simp] theorem State.setOut_mem (o : List Byte) : (s.setOut o).mem = s.mem := rfl
@[simp] theorem State.setOut_inq (o : List Byte) : (s.setOut o).inq = s.inq := rfl
@[simp] theorem State.setOut_out (o : List Byte) : (s.setOut o).out = o := rfl
@[simp] theorem State.setOut_cfg (o : List Byte) : (s.setOut o).cfg = s.cfg := rfl
@[simp] theorem State.setOut_reg (o : List Byte) (q : Reg) : (s.setOut o).reg q = s.reg q := rfl

/-- Reading a register of the file after writing one. -/
@[simp] theorem Regs.get_set (g : Regs) (r : Reg) (v : Word) (q : Reg) :
    (g.set r v).get q = if q = r then v else g.get q := by
  cases r <;> cases q <;> rfl

/-- Reading a register after writing one: the written value there, the old value elsewhere. -/
@[simp] theorem State.setReg_reg (r : Reg) (v : Word) (q : Reg) :
    (s.setReg r v).reg q = if q = r then v else s.reg q :=
  Regs.get_set s.gpr r v q

/-- Two register files that read the same everywhere are the same. -/
theorem Regs.ext_get {g h : Regs} (e : ∀ r, g.get r = h.get r) : g = h := by
  cases g
  cases h
  have e0 := e .r0
  have e1 := e .r1
  have e2 := e .r2
  have e3 := e .r3
  have e4 := e .r4
  have e5 := e .r5
  have e6 := e .r6
  have e7 := e .r7
  simp only [Regs.get] at e0 e1 e2 e3 e4 e5 e6 e7
  simp [*]

end Sys2Proof.Machine
end

