-- ==== Sys2Proof/Laws/Ops.lean ====
section
/-! SUPPORT. One lemma per shared operation: everything the operation can do. The meanings are built from
these operations alone, so a proof about an instruction cites these and unfolds none of them. -/

namespace Sys2Proof.Machine

variable (s : State)

/-! ## Reads and writes of memory -/

@[simp] theorem memWrite_gpr (a v : Word) : (memWrite a v s).gpr = s.gpr := rfl
@[simp] theorem memWrite_reg (a v : Word) (r : Reg) : (memWrite a v s).reg r = s.reg r := rfl
@[simp] theorem memWrite_pc (a v : Word) : (memWrite a v s).pc = s.pc := rfl
@[simp] theorem memWrite_cond (a v : Word) : (memWrite a v s).cond = s.cond := rfl
@[simp] theorem memWrite_run (a v : Word) : (memWrite a v s).run = s.run := rfl
@[simp] theorem memWrite_mem (a v : Word) : (memWrite a v s).mem = s.mem.write a v := rfl
@[simp] theorem memWrite_inq (a v : Word) : (memWrite a v s).inq = s.inq := rfl
@[simp] theorem memWrite_out (a v : Word) : (memWrite a v s).out = s.out := rfl
@[simp] theorem memWrite_cfg (a v : Word) : (memWrite a v s).cfg = s.cfg := rfl

/-- The poll with nothing waiting clears the status word and does nothing else. -/
theorem kbdPoll_nil (h : s.inq = []) : kbdPoll s = memWrite s.cfg.kbsrAddr 0 s := by
  simp [kbdPoll, h]

/-- The poll with a character waiting takes it, sets the status word and then the data word. -/
theorem kbdPoll_cons {c : Byte} {rest : List Byte} (h : s.inq = c :: rest) :
    kbdPoll s =
      memWrite s.cfg.kbdrAddr (zext16 c) (memWrite s.cfg.kbsrAddr 0x8000 (s.setInq rest)) := by
  simp [kbdPoll, h]

/-- The poll is only a change of memory and of the waiting input. -/
theorem kbdPoll_eq : ∃ m, kbdPoll s = (s.setMem m).setInq s.inq.tail := by
  cases h : s.inq with
  | nil => exact ⟨s.mem.write s.cfg.kbsrAddr 0, by rw [kbdPoll_nil s h]; cases s; cases h; rfl⟩
  | cons c rest =>
    exact ⟨(s.mem.write s.cfg.kbsrAddr 0x8000).write s.cfg.kbdrAddr (zext16 c), by
      rw [kbdPoll_cons s h]
      rfl⟩

@[simp] theorem kbdPoll_gpr : (kbdPoll s).gpr = s.gpr := by
  obtain ⟨m, h⟩ := kbdPoll_eq s
  simp [h]
@[simp] theorem kbdPoll_reg (r : Reg) : (kbdPoll s).reg r = s.reg r := by simp [State.reg]
@[simp] theorem kbdPoll_pc : (kbdPoll s).pc = s.pc := by
  obtain ⟨m, h⟩ := kbdPoll_eq s
  simp [h]
@[simp] theorem kbdPoll_cond : (kbdPoll s).cond = s.cond := by
  obtain ⟨m, h⟩ := kbdPoll_eq s
  simp [h]
@[simp] theorem kbdPoll_run : (kbdPoll s).run = s.run := by
  obtain ⟨m, h⟩ := kbdPoll_eq s
  simp [h]
@[simp] theorem kbdPoll_inq : (kbdPoll s).inq = s.inq.tail := by
  obtain ⟨m, h⟩ := kbdPoll_eq s
  simp [h]
@[simp] theorem kbdPoll_out : (kbdPoll s).out = s.out := by
  obtain ⟨m, h⟩ := kbdPoll_eq s
  simp [h]
@[simp] theorem kbdPoll_cfg : (kbdPoll s).cfg = s.cfg := by
  obtain ⟨m, h⟩ := kbdPoll_eq s
  simp [h]

/-- The poll keeps memory in its canonical form. -/
theorem kbdPoll_wf (h : s.mem.wf = true) : (kbdPoll s).mem.wf = true := by
  cases hq : s.inq with
  | nil => simpa [kbdPoll_nil s hq] using Memory.write_wf _ _ h
  | cons c rest => simpa [kbdPoll_cons s hq] using Memory.write_wf _ _ (Memory.write_wf _ _ h)

/-- The device-aware read returns the word that stands at the address in the state it leaves. -/
@[simp] theorem memRead_fst (a : Word) : (memRead a s).1 = (memRead a s).2.mem.read a := by
  by_cases h : a = s.cfg.kbsrAddr <;> simp [memRead, h]

/-- A read of `KBSR_ADDR` leaves the polled state. -/
theorem memRead_poll {a : Word} (h : a = s.cfg.kbsrAddr) : (memRead a s).2 = kbdPoll s := by
  simp [memRead, h]

/-- A read of any other address leaves the state as it was. -/
theorem memRead_plain {a : Word} (h : a ≠ s.cfg.kbsrAddr) : (memRead a s).2 = s := by
  simp [memRead, h]

@[simp] theorem memRead_gpr (a : Word) : (memRead a s).2.gpr = s.gpr := by
  by_cases h : a = s.cfg.kbsrAddr <;> simp [memRead, h]
@[simp] theorem memRead_reg (a : Word) (r : Reg) : (memRead a s).2.reg r = s.reg r := by
  simp [State.reg]
@[simp] theorem memRead_pc (a : Word) : (memRead a s).2.pc = s.pc := by
  by_cases h : a = s.cfg.kbsrAddr <;> simp [memRead, h]
@[simp] theorem memRead_cond (a : Word) : (memRead a s).2.cond = s.cond := by
  by_cases h : a = s.cfg.kbsrAddr <;> simp [memRead, h]
@[simp] theorem memRead_run (a : Word) : (memRead a s).2.run = s.run := by
  by_cases h : a = s.cfg.kbsrAddr <;> simp [memRead, h]
@[simp] theorem memRead_out (a : Word) : (memRead a s).2.out = s.out := by
  by_cases h : a = s.cfg.kbsrAddr <;> simp [memRead, h]
@[simp] theorem memRead_cfg (a : Word) : (memRead a s).2.cfg = s.cfg := by
  by_cases h : a = s.cfg.kbsrAddr <;> simp [memRead, h]

/-- A read keeps memory in its canonical form. -/
theorem memRead_wf (a : Word) (h : s.mem.wf = true) : (memRead a s).2.mem.wf = true := by
  by_cases ha : a = s.cfg.kbsrAddr
  · rw [memRead_poll s ha]
    exact kbdPoll_wf s h
  · rwa [memRead_plain s ha]

/-! ## Flags and destinations -/

@[simp] theorem setcc_eq (r : Reg) : setcc r s = s.setCond (classify (s.reg r)) := rfl

/-- Writing a destination writes the register and the flags of the written value. -/
theorem writeDest_eq (r : Reg) (v : Word) :
    writeDest r v s = (s.setReg r v).setCond (classify v) := by
  simp [writeDest]

@[simp] theorem writeDest_reg (r : Reg) (v : Word) (q : Reg) :
    (writeDest r v s).reg q = if q = r then v else s.reg q := by simp [writeDest_eq]
@[simp] theorem writeDest_pc (r : Reg) (v : Word) : (writeDest r v s).pc = s.pc := rfl
@[simp] theorem writeDest_cond (r : Reg) (v : Word) : (writeDest r v s).cond = classify v := by
  simp [writeDest_eq]
@[simp] theorem writeDest_run (r : Reg) (v : Word) : (writeDest r v s).run = s.run := rfl
@[simp] theorem writeDest_mem (r : Reg) (v : Word) : (writeDest r v s).mem = s.mem := rfl
@[simp] theorem writeDest_inq (r : Reg) (v : Word) : (writeDest r v s).inq = s.inq := rfl
@[simp] theorem writeDest_out (r : Reg) (v : Word) : (writeDest r v s).out = s.out := rfl
@[simp] theorem writeDest_cfg (r : Reg) (v : Word) : (writeDest r v s).cfg = s.cfg := rfl

/-! ## The console, the link, the held step and the abort -/

/-- `ConIn` succeeds exactly when a character waits, and then takes the oldest. -/
theorem conIn_eq_some {c : Byte} {t : State} :
    conIn s = some (c, t) ↔ ∃ rest, s.inq = c :: rest ∧ t = s.setInq rest := by
  cases h : s.inq <;> simp [conIn, h, eq_comm]

/-- `ConIn` is not enabled exactly when no character waits. -/
theorem conIn_eq_none : conIn s = none ↔ s.inq = [] := by
  cases h : s.inq <;> simp [conIn, h]

@[simp] theorem conOut_eq (cs : List Byte) : conOut cs s = s.setOut (s.out ++ cs) := rfl
@[simp] theorem holdStep_eq : holdStep s = s.setPc (s.pc - 1) := rfl
@[simp] theorem trapLink_eq : trapLink s = s.setReg .r7 s.pc := rfl
@[simp] theorem raise_eq (c : AbortCause) : raise c s = s.setRun (.aborted c) := rfl

/-! ## The fetch -/

/-- The fetch: the device-aware read at `pc`, and `pc` advanced by one word. -/
theorem fetch_eq : fetch s = ((memRead s.pc s).1, (memRead s.pc s).2.setPc (s.pc + 1)) := by
  simp [fetch]

/-- A fetch away from `KBSR_ADDR` reads the stored word and changes only `pc`. -/
theorem fetch_plain (h : s.pc ≠ s.cfg.kbsrAddr) :
    fetch s = (s.mem.read s.pc, s.setPc (s.pc + 1)) := by
  simp [fetch_eq, memRead_plain s h]

/-! ## The string walk -/

/-- The address of the next word's `i`-th successor. -/
theorem succ_add_ofNat (a : Word) (i : Nat) :
    a + 1 + BitVec.ofNat 16 i = a + BitVec.ofNat 16 (i + 1) := by
  rw [BitVec.ofNat_add, BitVec.add_comm (BitVec.ofNat 16 i), BitVec.add_assoc]
  rfl

/-- The walk gives up exactly when none of the words it looked at is zero. -/
theorem walkString_eq_none (chars : Word → List Byte) :
    ∀ (n : Nat) (a : Word),
      walkString chars s n a = none ↔ ∀ i < n, s.mem.read (a + BitVec.ofNat 16 i) ≠ 0
  | 0, a => by simp [walkString]
  | n + 1, a => by
    have ih := walkString_eq_none chars n (a + 1)
    by_cases h : s.mem.read a = 0
    · simp only [walkString, memRaw, h, if_true, reduceCtorEq, false_iff, not_forall]
      exact ⟨0, by omega, by simpa using h⟩
    · simp only [walkString, memRaw, h, if_false, Option.map_eq_none_iff, ih, succ_add_ofNat]
      constructor
      · intro hn i hi
        cases i with
        | zero => simpa using h
        | succ i => exact hn i (by omega)
      · intro hn i hi
        exact hn (i + 1) (by omega)

/-- The walk succeeds with the characters of the words before the first zero word. -/
theorem walkString_eq_some (chars : Word → List Byte) :
    ∀ (n k : Nat) (a : Word), k < n →
      (∀ i < k, s.mem.read (a + BitVec.ofNat 16 i) ≠ 0) →
      s.mem.read (a + BitVec.ofNat 16 k) = 0 →
      walkString chars s n a =
        some ((List.range k).flatMap fun i => chars (s.mem.read (a + BitVec.ofNat 16 i)))
  | 0, _, _, hk, _, _ => absurd hk (by omega)
  | n + 1, 0, a, _, _, hz => by
    have hz' : s.mem.read a = 0 := by simpa using hz
    simp [walkString, memRaw, hz']
  | n + 1, k + 1, a, hk, hne, hz => by
    have h0 : ¬ s.mem.read a = 0 := by simpa using hne 0 (by omega)
    have ih := walkString_eq_some chars n k (a + 1) (by omega)
      (fun i hi => by rw [succ_add_ofNat]; exact hne (i + 1) (by omega)) (by rw [succ_add_ofNat]; exact hz)
    simp only [walkString, memRaw, h0, if_false, ih, Option.map_some, succ_add_ofNat, List.range_succ_eq_map,
      List.flatMap_cons, List.flatMap_map]
    simp

end Sys2Proof.Machine
end

