-- ==== Sys2Proof/Laws/PerInstr.lean ====
section
/-! SUPPORT. Facts about every instruction as syntax, one lemma per constructor of Instr: the word the
encoder writes has the fixed bits of the instruction's row in R55. -/

namespace Sys2Proof.Laws

/-- The encoder's word of `i` matches the mask and match of its row (R55), and the bits R56 calls
ignored lie outside the mask. -/
def EncodedRow.Statement (i : Instr) : Prop :=
  encode i &&& (tableRow i).1 = (tableRow i).2 ∧ (tableRow i).1 &&& ignoredBits i = 0

theorem EncodedRow.br (n z p : Bool) (off9 : BitVec 9) : EncodedRow.Statement (.br n z p off9) := by
  refine ⟨?_, by simp [tableRow, ignoredBits]⟩
  simp only [encode, tableRow]
  ext i hi
  interval_cases i <;> simp [place]

theorem EncodedRow.addReg (dr sr1 sr2 : Reg) : EncodedRow.Statement (.addReg dr sr1 sr2) := by
  refine ⟨?_, by simp [tableRow, ignoredBits]⟩
  simp only [encode, tableRow]
  ext i hi
  interval_cases i <;> simp [place]

theorem EncodedRow.addImm (dr sr1 : Reg) (imm5 : BitVec 5) : EncodedRow.Statement (.addImm dr sr1 imm5) := by
  refine ⟨?_, by simp [tableRow, ignoredBits]⟩
  simp only [encode, tableRow]
  ext i hi
  interval_cases i <;> simp [place]

theorem EncodedRow.ld (dr : Reg) (off9 : BitVec 9) : EncodedRow.Statement (.ld dr off9) := by
  refine ⟨?_, by simp [tableRow, ignoredBits]⟩
  simp only [encode, tableRow]
  ext i hi
  interval_cases i <;> simp [place]

theorem EncodedRow.st (sr : Reg) (off9 : BitVec 9) : EncodedRow.Statement (.st sr off9) := by
  refine ⟨?_, by simp [tableRow, ignoredBits]⟩
  simp only [encode, tableRow]
  ext i hi
  interval_cases i <;> simp [place]

theorem EncodedRow.jsr (off11 : BitVec 11) : EncodedRow.Statement (.jsr off11) := by
  refine ⟨?_, by simp [tableRow, ignoredBits]⟩
  simp only [encode, tableRow]
  ext i hi
  interval_cases i <;> simp [place]

theorem EncodedRow.jsrr (base : Reg) : EncodedRow.Statement (.jsrr base) := by
  refine ⟨?_, by simp [tableRow, ignoredBits]⟩
  simp only [encode, tableRow]
  ext i hi
  interval_cases i <;> simp [place]

theorem EncodedRow.andReg (dr sr1 sr2 : Reg) : EncodedRow.Statement (.andReg dr sr1 sr2) := by
  refine ⟨?_, by simp [tableRow, ignoredBits]⟩
  simp only [encode, tableRow]
  ext i hi
  interval_cases i <;> simp [place]

theorem EncodedRow.andImm (dr sr1 : Reg) (imm5 : BitVec 5) : EncodedRow.Statement (.andImm dr sr1 imm5) := by
  refine ⟨?_, by simp [tableRow, ignoredBits]⟩
  simp only [encode, tableRow]
  ext i hi
  interval_cases i <;> simp [place]

theorem EncodedRow.ldr (dr base : Reg) (off6 : BitVec 6) : EncodedRow.Statement (.ldr dr base off6) := by
  refine ⟨?_, by simp [tableRow, ignoredBits]⟩
  simp only [encode, tableRow]
  ext i hi
  interval_cases i <;> simp [place]

theorem EncodedRow.str (sr base : Reg) (off6 : BitVec 6) : EncodedRow.Statement (.str sr base off6) := by
  refine ⟨?_, by simp [tableRow, ignoredBits]⟩
  simp only [encode, tableRow]
  ext i hi
  interval_cases i <;> simp [place]

theorem EncodedRow.rti (low12 : BitVec 12) : EncodedRow.Statement (.rti low12) := by
  refine ⟨?_, by simp [tableRow, ignoredBits]⟩
  simp only [encode, tableRow]
  ext i hi
  interval_cases i <;> simp [place]

theorem EncodedRow.not (dr sr : Reg) : EncodedRow.Statement (.not dr sr) := by
  refine ⟨?_, by simp [tableRow, ignoredBits]⟩
  simp only [encode, tableRow]
  ext i hi
  interval_cases i <;> simp [place]

theorem EncodedRow.ldi (dr : Reg) (off9 : BitVec 9) : EncodedRow.Statement (.ldi dr off9) := by
  refine ⟨?_, by simp [tableRow, ignoredBits]⟩
  simp only [encode, tableRow]
  ext i hi
  interval_cases i <;> simp [place]

theorem EncodedRow.sti (sr : Reg) (off9 : BitVec 9) : EncodedRow.Statement (.sti sr off9) := by
  refine ⟨?_, by simp [tableRow, ignoredBits]⟩
  simp only [encode, tableRow]
  ext i hi
  interval_cases i <;> simp [place]

theorem EncodedRow.jmp (base : Reg) : EncodedRow.Statement (.jmp base) := by
  refine ⟨?_, by simp [tableRow, ignoredBits]⟩
  simp only [encode, tableRow]
  ext i hi
  interval_cases i <;> simp [place]

theorem EncodedRow.res (low12 : BitVec 12) : EncodedRow.Statement (.res low12) := by
  refine ⟨?_, by simp [tableRow, ignoredBits]⟩
  simp only [encode, tableRow]
  ext i hi
  interval_cases i <;> simp [place]

theorem EncodedRow.lea (dr : Reg) (off9 : BitVec 9) : EncodedRow.Statement (.lea dr off9) := by
  refine ⟨?_, by simp [tableRow, ignoredBits]⟩
  simp only [encode, tableRow]
  ext i hi
  interval_cases i <;> simp [place]

theorem EncodedRow.trapGetc : EncodedRow.Statement .trapGetc := by
  exact ⟨rfl, rfl⟩

theorem EncodedRow.trapOut : EncodedRow.Statement .trapOut := by
  exact ⟨rfl, rfl⟩

theorem EncodedRow.trapPuts : EncodedRow.Statement .trapPuts := by
  exact ⟨rfl, rfl⟩

theorem EncodedRow.trapIn : EncodedRow.Statement .trapIn := by
  exact ⟨rfl, rfl⟩

theorem EncodedRow.trapPutsp : EncodedRow.Statement .trapPutsp := by
  exact ⟨rfl, rfl⟩

theorem EncodedRow.trapHalt : EncodedRow.Statement .trapHalt := by
  exact ⟨rfl, rfl⟩

theorem EncodedRow.trapOther (vect : BitVec 8) : EncodedRow.Statement (.trapOther vect) := by
  refine ⟨?_, by simp [tableRow, ignoredBits]⟩
  simp only [encode, tableRow]
  ext i hi
  interval_cases i <;> simp [place]

end Sys2Proof.Laws
end

