-- ==== Sys2Proof/Laws/Trap.lean ====
section
/-! SUPPORT. What the routines with a choice in them answer: one lemma per case. The other meanings are one
next state and need none. -/

namespace Sys2Proof.Machine

variable (s : State)

/-- GETC with a character waiting. -/
theorem execTrapGetc_ready {c : Byte} {rest : List Byte} (h : s.inq = c :: rest) :
    execTrapGetc s = .next (writeDest .r0 (zext16 c) ((trapLink s).setInq rest)) := by
  simp [execTrapGetc, conIn, h]

/-- GETC with none waiting. -/
theorem execTrapGetc_held (h : s.inq = []) : execTrapGetc s = .next (holdStep s) := by
  simp [execTrapGetc, conIn, h]

/-- IN with a character waiting. -/
theorem execTrapIn_ready {c : Byte} {rest : List Byte} (h : s.inq = c :: rest) :
    execTrapIn s = .next (writeDest .r0 (zext16 c)
      (conOut [c] ((conOut s.cfg.inPrompt (trapLink s)).setInq rest))) := by
  simp [execTrapIn, conIn, h]

/-- IN with none waiting. -/
theorem execTrapIn_held (h : s.inq = []) : execTrapIn s = .next (holdStep s) := by
  simp [execTrapIn, conIn, h]

/-- The string at an address, its first zero word being the `k`-th. -/
theorem stringAt_eq_some (chars : Word → List Byte) {k : Nat} {a : Word} (hk : k < 65536)
    (hne : ∀ i < k, s.mem.read (a + BitVec.ofNat 16 i) ≠ 0)
    (hz : s.mem.read (a + BitVec.ofNat 16 k) = 0) :
    stringAt chars s a =
      some ((List.range k).flatMap fun i => chars (s.mem.read (a + BitVec.ofNat 16 i))) :=
  walkString_eq_some s chars 65536 k a hk hne hz

/-- There is no string in a memory without a zero word. -/
theorem stringAt_eq_none (chars : Word → List Byte) (h : ∀ a, s.mem.read a ≠ 0) (a : Word) :
    stringAt chars s a = none :=
  (walkString_eq_none s chars 65536 a).mpr fun _ _ => h _

/-- If some word of memory is zero, a walk from any address meets a first one within 65536 words. -/
theorem first_zero_word (m : Memory) (h : ∃ a, m.read a = 0) (x : Word) :
    ∃ k, k < 65536 ∧ m.read (x + BitVec.ofNat 16 k) = 0 ∧
      ∀ i < k, m.read (x + BitVec.ofNat 16 i) ≠ 0 := by
  obtain ⟨a, ha⟩ := h
  have hit : m.read (x + BitVec.ofNat 16 (a - x).toNat) = 0 := by
    rw [BitVec.ofNat_toNat, BitVec.setWidth_eq, BitVec.add_comm, BitVec.sub_add_cancel]
    exact ha
  have ex : ∃ k, m.read (x + BitVec.ofNat 16 k) = 0 := ⟨_, hit⟩
  classical
  exact ⟨Nat.find ex, lt_of_le_of_lt (Nat.find_min' ex hit) (a - x).isLt, Nat.find_spec ex,
    fun i hi => Nat.find_min ex hi⟩

/-- A step of a RUNNING machine is the execution of the fetched word. -/
theorem step_running (h : s.run = .running) : step s = exec (decode (fetch s).1) (fetch s).2 := by
  simp [step, h]

end Sys2Proof.Machine
end

