-- ==== Sys2Proof/Tests/Slice0.lean ====
section
/-! SUPPORT. The model's own tests. Expected results come from spec/95_test_vectors.md, each test naming
its vectors there, or from the patterns of R55; none is the model's own answer. The last part shows,
for every statement with hypotheses, a state and operands that meet them all. -/

namespace Sys2Proof.Tests

open Sys2Proof.Machine

/-! ## Small states -/

/-- The start state of the vectors: a word at `pc`, everything else as after reset. -/
def placed (pc w : Word) : State := memWrite pc w { State.reset with pc := pc }

/-- The same at 0x3000. -/
def atReset (w : Word) : State := placed 0x3000 w

/-- Put words in memory. -/
def withWords (l : List (Word × Word)) (s : State) : State :=
  l.foldl (fun t c => memWrite c.1 c.2 t) s

/-- Put registers. -/
def withRegs (l : List (Reg × Word)) (s : State) : State :=
  l.foldl (fun t c => t.setReg c.1 c.2) s

/-- What one step answers, seen through `f`; `none` if it is no next state. -/
def afterStep {α : Type} (f : State → α) (s : State) : Option α :=
  match step s with
  | .next t => some (f t)
  | .fault _ => none
  | .refused _ => none

/-- A destination register, the flag and the program counter. -/
def result (r : Reg) (t : State) : Word × Cond × Word := (t.reg r, t.cond, t.pc)

/-! ## Well-formedness -/

/-- The one check refuses the six recognised vectors under the last row's constructor. -/
theorem test_wellFormed_refuses_recognised_vectors :
    (Instr.trapOther 0x20).wellFormed = false ∧ (Instr.trapOther 0x25).wellFormed = false := by
  decide

theorem test_wellFormed_accepts_the_neighbours :
    (Instr.trapOther 0x1F).wellFormed = true ∧ (Instr.trapOther 0x26).wellFormed = true := by
  decide

/-! ## Decoding: words written out from the patterns of R55, one or more per constructor -/

theorem test_decode_br : decode 0b0000_001_111111101 = .br false false true 0x1FD := by decide
theorem test_decode_br_mask : decode 0b0000_110_100000000 = .br true true false 0x100 := by decide
theorem test_decode_addReg : decode 0b0001_010_011_0_00_100 = .addReg .r2 .r3 .r4 := by decide
theorem test_decode_addReg_ignored : decode 0b0001_010_011_0_11_100 = .addReg .r2 .r3 .r4 := by decide
theorem test_decode_addImm : decode 0b0001_000_001_1_00011 = .addImm .r0 .r1 3 := by decide
theorem test_decode_ld : decode 0b0010_001_000000111 = .ld .r1 7 := by decide
theorem test_decode_st : decode 0b0011_000_000000001 = .st .r0 1 := by decide
theorem test_decode_jsr : decode 0b0100_1_10000000011 = .jsr 0x403 := by decide
theorem test_decode_jsrr : decode 0b0100_0_00_011_000000 = .jsrr .r3 := by decide
theorem test_decode_andReg : decode 0b0101_001_010_0_00_011 = .andReg .r1 .r2 .r3 := by decide
theorem test_decode_andImm : decode 0b0101_000_001_1_11111 = .andImm .r0 .r1 0x1F := by decide
theorem test_decode_ldr : decode 0b0110_010_001_111111 = .ldr .r2 .r1 0x3F := by decide
theorem test_decode_str : decode 0b0111_011_110_000101 = .str .r3 .r6 5 := by decide
theorem test_decode_rti : decode 0b1000_000000000001 = .rti 1 := by decide
theorem test_decode_not : decode 0b1001_101_010_111111 = .not .r5 .r2 := by decide
theorem test_decode_not_ignored : decode 0b1001_101_010_000000 = .not .r5 .r2 := by decide
theorem test_decode_ldi : decode 0b1010_000_000000100 = .ldi .r0 4 := by decide
theorem test_decode_sti : decode 0b1011_001_000000110 = .sti .r1 6 := by decide
theorem test_decode_jmp : decode 0b1100_000_010_000000 = .jmp .r2 := by decide
theorem test_decode_ret : decode 0b1100_000_111_000000 = .jmp .r7 := by decide
theorem test_decode_jmp_ignored : decode 0b1100_111_010_111111 = .jmp .r2 := by decide
theorem test_decode_res : decode 0b1101_111111111111 = .res 0xFFF := by decide
theorem test_decode_lea : decode 0b1110_000_000000010 = .lea .r0 2 := by decide
theorem test_decode_trapGetc : decode 0b1111_0000_00100000 = .trapGetc := by decide
theorem test_decode_trapOut : decode 0b1111_1111_00100001 = .trapOut := by decide
theorem test_decode_trapPuts : decode 0b1111_0000_00100010 = .trapPuts := by decide
theorem test_decode_trapIn : decode 0b1111_0000_00100011 = .trapIn := by decide
theorem test_decode_trapPutsp : decode 0b1111_0000_00100100 = .trapPutsp := by decide
theorem test_decode_trapHalt : decode 0b1111_0000_00100101 = .trapHalt := by decide
theorem test_decode_trapOther :
    decode 0b1111_0000_00100110 = .trapOther 0x26 ∧ decode 0b1111_0000_00011111 = .trapOther 0x1F := by
  decide

/-- The table's numbering of the bits is the word's own; more than a word is not an instruction. -/
theorem test_decodeTableWord :
    decodeTableWord 16 0x1063 = some (.addImm .r0 .r1 3) ∧ decodeTableWord 32 0x1063 = none ∧
      decodeTableWord 16 0x11063 = none := by
  decide

/-- Each constructor's encoding matches the mask and match of its own row of R55. -/
theorem test_table_rows_match_their_encodings :
    [Instr.br true false true 9, .addReg .r1 .r2 .r3, .addImm .r1 .r2 4, .ld .r3 5, .st .r3 5, .jsr 6,
      .jsrr .r2, .andReg .r1 .r2 .r3, .andImm .r1 .r2 4, .ldr .r1 .r2 3, .str .r1 .r2 3, .rti 7,
      .not .r1 .r2, .ldi .r3 5, .sti .r3 5, .jmp .r2, .res 7, .lea .r3 5, .trapGetc, .trapOut,
      .trapPuts, .trapIn, .trapPutsp, .trapHalt, .trapOther 0xFF].all
        (fun i => encode i &&& (tableRow i).1 == (tableRow i).2) = true := by
  decide

/-! ## Primitives (T-SX, T-CC) -/

/-- T-SX-1 to T-SX-9. -/
theorem test_sext :
    sext 0x1F#5 = 0xFFFF ∧ sext 0x20#6 = 0xFFE0 ∧ sext 0x1F#6 = 0x001F ∧ sext 0x100#9 = 0xFF00 ∧
      sext 0x1FF#9 = 0xFFFF ∧ sext 0x0FF#9 = 0x00FF ∧ sext 0x400#11 = 0xFC00 ∧
      sext 0x3FF#11 = 0x03FF ∧ sext 0x8000#16 = 0x8000 := by
  decide

/-- T-CC-1 to T-CC-3 and S3. -/
theorem test_classify :
    classify 0x7FFF = .p ∧ classify 0xFFFF = .n ∧ classify 0 = .z ∧ classify 0x8000 = .n ∧
      classify 1 = .p := by
  decide

/-! ## Operate instructions -/

/-- T-ADD-1. -/
theorem test_addReg :
    afterStep (result .r2) (withRegs [(.r3, 5), (.r4, 7)] (atReset 0x14C4)) =
      some (0x000C, .p, 0x3001) := by
  decide

/-- T-ADD-6: the destination is both sources. -/
theorem test_addReg_same_register :
    afterStep (result .r1) (withRegs [(.r1, 0x4000)] (atReset 0x1241)) =
      some (0x8000, .n, 0x3001) := by
  decide

/-- T-ADD-4: the sum wraps to zero. -/
theorem test_addImm_wraps :
    afterStep (result .r0) (withRegs [(.r1, 0xFFFF)] (atReset 0x1061)) = some (0, .z, 0x3001) := by
  decide

/-- T-ADD-7: the most negative immediate. -/
theorem test_addImm_negative :
    afterStep (result .r0) (withRegs [(.r1, 0x0010)] (atReset 0x1070)) = some (0, .z, 0x3001) := by
  decide

/-- T-AND-1. -/
theorem test_andReg :
    afterStep (result .r1) (withRegs [(.r2, 0xFF0F), (.r3, 0x0FF0)] (atReset 0x5283)) =
      some (0x0F00, .p, 0x3001) := by
  decide

/-- T-AND-3: the immediate is sign-extended. -/
theorem test_andImm_minus_one :
    afterStep (result .r0) (withRegs [(.r1, 0x8123)] (atReset 0x507F)) =
      some (0x8123, .n, 0x3001) := by
  decide

/-- T-AND-5. -/
theorem test_andImm_positive :
    afterStep (result .r3) (withRegs [(.r3, 0x12FF)] (atReset 0x56EF)) =
      some (0x000F, .p, 0x3001) := by
  decide

/-- T-NOT-1. -/
theorem test_not :
    afterStep (result .r1) (withRegs [(.r1, 7)] (atReset 0x927F)) = some (0xFFF8, .n, 0x3001) := by
  decide

/-- T-NOT-4: the low six bits are ignored. -/
theorem test_not_ignored_bits :
    afterStep (result .r1) (withRegs [(.r1, 0x7FFF)] (atReset 0x9240)) =
      some (0x8000, .n, 0x3001) := by
  decide

/-! ## Control transfer -/

/-- T-BR-1 and T-BR-2. -/
theorem test_br_taken_and_not :
    afterStep State.pc ((placed 0x3005 0x03FD).setCond .p) = some 0x3003 ∧
      afterStep State.pc ((placed 0x3005 0x03FD).setCond .z) = some 0x3006 := by
  decide

/-- T-BR-6 and T-BR-7: the target wraps both ways. -/
theorem test_br_wraps :
    afterStep State.pc (placed 0xFFFF 0x04FF) = some 0x00FF ∧
      afterStep State.pc ((placed 0 0x0D00).setCond .n) = some 0xFF01 := by
  decide

/-- T-JMP-2, all ignored bits set. -/
theorem test_jmp :
    afterStep State.pc (withRegs [(.r2, 0x4000)] (atReset 0xCEBF)) = some 0x4000 := by
  decide

/-- T-JMP-3. -/
theorem test_ret :
    afterStep (fun t => (t.pc, t.reg .r7)) (withRegs [(.r7, 0x3002)] (placed 0x3007 0xC1C0)) =
      some (0x3002, 0x3002) := by
  decide

/-- T-JSR-1. -/
theorem test_jsr :
    afterStep (fun t => (t.reg .r7, t.pc)) (placed 0x3001 0x4803) = some (0x3002, 0x3005) := by
  decide

/-- T-JSR-2, the most negative offset. -/
theorem test_jsr_negative :
    afterStep (fun t => (t.reg .r7, t.pc)) (atReset 0x4C00) = some (0x3001, 0x2C01) := by
  decide

/-- T-JSRR-1. -/
theorem test_jsrr :
    afterStep (fun t => (t.reg .r7, t.pc)) (withRegs [(.r3, 0x5000)] (atReset 0x40C0)) =
      some (0x3001, 0x5000) := by
  decide

/-- T-JSRR-2: the base is the link register. -/
theorem test_jsrr_link_register :
    afterStep (fun t => (t.reg .r7, t.pc)) (withRegs [(.r7, 0x5000)] (atReset 0x41C0)) =
      some (0x3001, 0x3001) := by
  decide

/-! ## Data movement -/

/-- T-LD-2: the word loaded is the instruction's own. -/
theorem test_ld_own_word : afterStep (result .r0) (atReset 0x21FF) = some (0x21FF, .p, 0x3001) := by
  decide

/-- T-KBD-1: a load elsewhere takes no input. -/
theorem test_ld_no_poll :
    afterStep (fun t => (result .r1 t, t.inq)) ((atReset 0x2207).setInq [0x78]) =
      some ((0, .z, 0x3001), [0x78]) := by
  decide

/-- T-LDI-1. -/
theorem test_ldi :
    afterStep (result .r0) (withWords [(0x3005, 0x4000), (0x4000, 0x1234)] (atReset 0xA004)) =
      some (0x1234, .p, 0x3001) := by
  decide

/-- T-LDI-2: the load polls the keyboard. -/
theorem test_ldi_polls :
    afterStep (fun t => (result .r0 t, t.mem.read 0xFE00, t.mem.read 0xFE02, t.inq))
        ((withWords [(0x3005, 0xFE00)] (atReset 0xA004)).setInq [0x6B]) =
      some ((0x8000, .n, 0x3001), 0x8000, 0x006B, []) := by
  decide

/-- T-LDR-2: the destination is the base. -/
theorem test_ldr_base_is_destination :
    afterStep (result .r1) (withRegs [(.r1, 0x4000)] (atReset 0x6240)) = some (0, .z, 0x3001) := by
  decide

/-- T-LDR-3: the address wraps. -/
theorem test_ldr_wraps :
    afterStep (result .r2) (withWords [(0xFFFF, 0x7777)] (atReset 0x647F)) =
      some (0x7777, .p, 0x3001) := by
  decide

/-- T-LEA-2. -/
theorem test_lea_negative : afterStep (result .r0) (placed 0x8000 0xE1FF) = some (0x8000, .n, 0x8001) := by
  decide

/-- T-LEA-3. -/
theorem test_lea_wraps :
    afterStep (result .r0) ((placed 0xFFFF 0xE000).setCond .p) = some (0, .z, 0) := by
  decide

/-- T-ST-1: the flags stay. -/
theorem test_st :
    afterStep (fun t => (t.mem.read 0x3008, t.cond, t.pc))
        (withRegs [(.r0, 0x000F)] ((placed 0x3006 0x3001).setCond .n)) =
      some (0x000F, .n, 0x3007) := by
  decide

/-- T-STI-1. -/
theorem test_sti :
    afterStep (fun t => (t.mem.read 0x4000, t.mem.read 0x3009, t.pc))
        (withRegs [(.r1, 0xFFF9)] (withWords [(0x3009, 0x4000)] (placed 0x3002 0xB206))) =
      some (0xFFF9, 0x4000, 0x3003) := by
  decide

/-- T-STR-1. -/
theorem test_str :
    afterStep (fun t => (t.mem.read 0x4005, t.pc))
        (withRegs [(.r6, 0x4000), (.r3, 0x00AA)] (atReset 0x7785)) = some (0x00AA, 0x3001) := by
  decide

/-- T-STR-2: the base is the source. -/
theorem test_str_base_is_source :
    afterStep (fun t => t.mem.read 0x4321) (withRegs [(.r1, 0x4321)] (atReset 0x7240)) =
      some 0x4321 := by
  decide

/-! ## TRAP and the reserved opcodes -/

/-- T-TRAP-3: the character is zero-extended. -/
theorem test_getc :
    afterStep (fun t => (result .r0 t, t.reg .r7, t.inq, t.out)) ((atReset 0xF020).setInq [0xFF]) =
      some ((0x00FF, .p, 0x3001), 0x3001, [], []) := by
  decide

/-- T-TRAP-4: with nothing waiting the state does not change. -/
theorem test_getc_held : afterStep id (atReset 0xF020) = some (atReset 0xF020) := by decide

/-- T-TRAP-5. -/
theorem test_out :
    afterStep (fun t => (t.out, t.reg .r0, t.reg .r7, t.pc))
        (withRegs [(.r0, 0x1241)] (atReset 0xF021)) = some ([0x41], 0x1241, 0x3001, 0x3001) := by
  decide

/-- T-TRAP-7: a word whose low byte is zero is not the end. -/
theorem test_puts :
    afterStep (fun t => (t.out, t.reg .r0, t.reg .r7))
        (withRegs [(.r0, 0x4000)] (withWords [(0x4000, 0x0100), (0x4001, 0x0041)] (atReset 0xF022))) =
      some ([0x00, 0x41], 0x4000, 0x3001) := by
  decide

/-- T-TRAP-8: the walk wraps. -/
theorem test_puts_wraps :
    afterStep State.out
        (withRegs [(.r0, 0xFFFF)] (withWords [(0xFFFF, 0x0041), (0, 0x0042)] (atReset 0xF022))) =
      some [0x41, 0x42] := by
  decide

/-- T-TRAP-11. -/
theorem test_in :
    afterStep (fun t => (t.out, result .r0 t, t.reg .r7, t.inq)) ((atReset 0xF023).setInq [0x7A]) =
      some (([0x45, 0x6E, 0x74, 0x65, 0x72, 0x20, 0x61, 0x20, 0x63, 0x68, 0x61, 0x72, 0x61, 0x63, 0x74,
        0x65, 0x72, 0x3A, 0x20, 0x7A] : List Byte), (0x007A, .p, 0x3001), 0x3001, []) := by
  decide

/-- R73 and decision D23: with nothing waiting not even the prompt is written. -/
theorem test_in_held : afterStep id (atReset 0xF023) = some (atReset 0xF023) := by decide

/-- T-TRAP-9. -/
theorem test_putsp :
    afterStep (fun t => (t.out, t.reg .r7))
        (withRegs [(.r0, 0x3003)] (withWords [(0x3003, 0x6548), (0x3004, 0x006C)] (atReset 0xF024))) =
      some ([0x48, 0x65, 0x6C], 0x3001) := by
  decide

/-- T-TRAP-10: a zero low byte is written. -/
theorem test_putsp_zero_low_byte :
    afterStep State.out (withRegs [(.r0, 0x4000)] (withWords [(0x4000, 0x4100)] (atReset 0xF024))) =
      some [0x00, 0x41] := by
  decide

/-- T-TRAP-12. -/
theorem test_halt :
    afterStep (fun t => (t.out, t.reg .r7, t.pc, t.run)) (placed 0x3002 0xF025) =
      some ([0x48, 0x41, 0x4C, 0x54, 0x0A], 0x3003, 0x3003, .halted) := by
  decide

/-- T-TRAP-13 and T-TRAP-14. -/
theorem test_bad_vector :
    afterStep (fun t => (t.run, t.reg .r7, t.pc, t.out)) (atReset 0xF026) =
        some (.aborted (.badTrapVector 0x26), 0x3001, 0x3001, []) ∧
      afterStep State.run (atReset 0xF000) = some (.aborted (.badTrapVector 0)) := by
  decide

/-- T-RTI-1. -/
theorem test_rti :
    afterStep (fun t => (t.run, t.pc, t.reg .r7)) (atReset 0x8000) =
      some (.aborted (.illegalOpcode 0x8000), 0x3001, 0) := by
  decide

/-- T-RES-1. -/
theorem test_res :
    afterStep (fun t => (t.run, t.pc, t.reg .r7)) (withRegs [(.r7, 0x1111)] (atReset 0xDFFF)) =
      some (.aborted (.illegalOpcode 0xDFFF), 0x3001, 0x1111) := by
  decide

/-! ## The dispatcher, the image and the keyboard words -/

/-- T-RST-2: the image's bytes. -/
theorem test_image :
    (match loadImage [0x30, 0x02, 0xF0, 0x25] State.reset with
      | .ok s => some (s.mem.read 0x3002, s.mem.read 0x3001)
      | .error _ => none) = some (0xF025, 0) := by
  decide

/-- T-WRAP-1: nothing but `pc` changes. -/
theorem test_pc_wraps :
    afterStep id (State.reset.setPc 0xFFFF) = some (State.reset.setPc 0) := by
  decide

/-- T-KBD-2: the status word is assigned, not or-ed into. -/
theorem test_poll_assigns :
    (memRead 0xFE00 ((memWrite 0xFE00 3 State.reset).setInq [0x6B])).1 = 0x8000 := by
  decide

/-- T-KBD-3: each status read takes a character. -/
theorem test_two_polls :
    (let a := memRead 0xFE00 (State.reset.setInq [0x61, 0x62])
      let b := memRead 0xFE00 a.2
      (a.1, a.2.mem.read 0xFE02, b.1, b.2.mem.read 0xFE02, b.2.inq)) =
      ((0x8000, 0x0061, 0x8000, 0x0062, []) : Word × Word × Word × Word × List Byte) := by
  decide

/-- T-KBD-4: reading the data word polls nothing. -/
theorem test_data_read :
    (memRead 0xFE02 (State.reset.setInq [0x61])).1 = 0 ∧
      (memRead 0xFE02 (State.reset.setInq [0x61])).2.inq = [0x61] := by
  decide

/-- The host's placement: the very next step runs the word. -/
theorem test_withFetchWord :
    afterStep (result .r0) (State.reset.withFetchWord 16 0x1021) = some (1, .p, 0x3001) := by
  decide

/-! ## Witnesses: states and operands that meet each statement's hypotheses -/

/-- DecodeEncodeRoundTrip, at the edges of the one check. -/
theorem witness_DecodeEncodeRoundTrip :
    (Instr.trapOther 0x1F).wellFormed = true ∧ (Instr.trapOther 0x26).wellFormed = true ∧
      (Instr.trapOther 0xFF).wellFormed = true ∧ (Instr.br true true true 0x1FF).wellFormed = true := by
  decide

/-- IllegalWordsExactlyAbort; its two sides are met by these words. -/
theorem witness_IllegalWordsExactlyAbort :
    State.reset.run = .running ∧ illegalWord 0x8000 ∧ illegalWord 0x8FFF ∧ illegalWord 0xD000 ∧
      illegalWord 0xDFFF ∧ illegalWord 0xF01F ∧ illegalWord 0xFF26 ∧ ¬ illegalWord 0xF020 ∧
      ¬ illegalWord 0xFF25 ∧ ¬ illegalWord 0x7FFF ∧ ¬ illegalWord 0x9000 ∧ ¬ illegalWord 0xE000 := by
  simp [State.reset, illegalWord]

/-- EmptyMaskBranchIsNoOperation, at both ends of the range. -/
theorem witness_EmptyMaskBranchIsNoOperation :
    (0x0000 : Word).toNat ≤ 0x01FF ∧ (0x01FF : Word).toNat ≤ 0x01FF := by
  decide

/-- SignExtensionReplicatesTheSignBit: the narrowest and the widest field, both signs. -/
theorem witness_SignExtensionReplicatesTheSignBit :
    (1 ≤ 1 ∧ 1 ≤ 16 ∧ (1#1).getLsbD 0 = true ∧ (0#1).getLsbD 0 = false) ∧
      (1 ≤ 16 ∧ 16 ≤ 16 ∧ (0x8000#16).getLsbD 15 = true ∧ (0x7FFF#16).getLsbD 15 = false) := by
  decide

/-- KeyboardPollUpdatesDeviceWords and DeviceAwareReadReturnsTheWord: both kinds of address, with and
without a character. -/
theorem witness_device_reads :
    (0xFE02 : Word) ≠ State.reset.cfg.kbsrAddr ∧ (0xFE00 : Word) = State.reset.cfg.kbsrAddr ∧
      State.reset.inq = [] ∧ (State.reset.setInq [1, 2]).inq = [1, 2] := by
  decide

/-- StatusThenDataReadGivesTheCharacter. -/
theorem witness_StatusThenDataReadGivesTheCharacter :
    (State.reset.cfg.wf = true ∧ State.reset.inq = []) ∧
      (State.reset.setInq [0x61]).cfg.wf = true ∧ (State.reset.setInq [0x61]).inq = 0x61 :: [] := by
  decide

/-- CanonicalMemoryIsExtensional: two writes in either order. -/
theorem witness_CanonicalMemoryIsExtensional :
    ((Memory.write ⟨[]⟩ 5 1).write 0xFFFF 2).wf = true ∧
      ((Memory.write ⟨[]⟩ 0xFFFF 2).write 5 1).wf = true ∧
      ∀ a, ((Memory.write ⟨[]⟩ 5 1).write 0xFFFF 2).read a =
        ((Memory.write ⟨[]⟩ 0xFFFF 2).write 5 1).read a := by
  refine ⟨by decide, by decide, fun a => ?_⟩
  simp only [Memory.read_write]
  by_cases h : a = 5
  · subst h
    rfl
  · simp only [if_neg h]

/-- The decoding clause of each instruction's statement: a word that its mask selects. -/
theorem witness_decoding_clauses :
    (0x03FD : Word) &&& 0xF000 = 0x0000 ∧ (0x14DC : Word) &&& 0xF020 = 0x1000 ∧
      (0x1063 : Word) &&& 0xF020 = 0x1020 ∧ (0x2207 : Word) &&& 0xF000 = 0x2000 ∧
      (0x3001 : Word) &&& 0xF000 = 0x3000 ∧ (0x4803 : Word) &&& 0xF800 = 0x4800 ∧
      (0x40C0 : Word) &&& 0xF800 = 0x4000 ∧ (0x5283 : Word) &&& 0xF020 = 0x5000 ∧
      (0x507F : Word) &&& 0xF020 = 0x5020 ∧ (0x647F : Word) &&& 0xF000 = 0x6000 ∧
      (0x7785 : Word) &&& 0xF000 = 0x7000 ∧ (0x8001 : Word) &&& 0xF000 = 0x8000 ∧
      (0x927F : Word) &&& 0xF000 = 0x9000 ∧ (0xA004 : Word) &&& 0xF000 = 0xA000 ∧
      (0xB206 : Word) &&& 0xF000 = 0xB000 ∧ (0xC1C0 : Word) &&& 0xF000 = 0xC000 ∧
      (0xDFFF : Word) &&& 0xF000 = 0xD000 ∧ (0xE002 : Word) &&& 0xF000 = 0xE000 := by
  decide

/-- The same for the six TRAP routines, ignored bits set. -/
theorem witness_trap_decoding_clauses :
    (0xFF20 : Word) &&& 0xF0FF = 0xF020 ∧ (0xFF21 : Word) &&& 0xF0FF = 0xF021 ∧
      (0xFF22 : Word) &&& 0xF0FF = 0xF022 ∧ (0xFF23 : Word) &&& 0xF0FF = 0xF023 ∧
      (0xFF24 : Word) &&& 0xF0FF = 0xF024 ∧ (0xFF25 : Word) &&& 0xF0FF = 0xF025 := by
  decide

/-- BadTrapVectorAborts, at both edges of the recognised range. -/
theorem witness_BadTrapVectorAborts :
    ((0xF01F : Word) &&& 0xF000 = 0xF000 ∧ recognisedVector (field 0xF01F 0 8) = false) ∧
      (0xFF26 : Word) &&& 0xF000 = 0xF000 ∧ recognisedVector (field 0xFF26 0 8) = false := by
  decide

/-- BranchTarget: each way to be taken, and one not to be. -/
theorem witness_BranchTarget :
    (true = true ∧ (State.reset.setCond .n).cond = .n) ∧ (true = true ∧ State.reset.cond = .z) ∧
      (true = true ∧ (State.reset.setCond .p).cond = .p) ∧
      ¬ ((true = true ∧ State.reset.cond = .n) ∨ (false = true ∧ State.reset.cond = .z) ∨
        (true = true ∧ State.reset.cond = .p)) := by
  decide

/-- RegisterCallLinksFirst. -/
theorem witness_RegisterCallLinksFirst : Reg.r6 ≠ .r7 ∧ Reg.r7 = .r7 := by decide

/-- GetcReadsOneCharacter and InPromptsReadsAndEchoes, both clauses. -/
theorem witness_input_routines :
    (State.reset.setInq [0xFF]).inq = 0xFF :: [] ∧ State.reset.inq = [] := by
  decide

/-- A list of cells that holds the word 1 at every one of `n` addresses from `lo`. -/
theorem lookupCell_ones (n : Nat) :
    ∀ lo k, lo ≤ k → k < lo + n → lookupCell k ((List.range' lo n).map fun j => (j, (1 : Word))) = 1 := by
  induction n with
  | zero => intro lo k h1 h2; omega
  | succ n ih =>
    intro lo k h1 h2
    rw [List.range'_succ, List.map_cons, lookupCell]
    by_cases h : lo = k
    · rw [if_pos h]
    · rw [if_neg h]
      exact ih (lo + 1) k (by omega) (by omega)

theorem cellsWf_ones (n : Nat) :
    ∀ lo, lo + n ≤ 65536 → cellsWf lo ((List.range' lo n).map fun j => (j, (1 : Word))) = true := by
  induction n with
  | zero => intro lo _; rfl
  | succ n ih =>
    intro lo h
    rw [List.range'_succ, List.map_cons, cellsWf_cons]
    exact ⟨Nat.le_refl _, by omega, by decide, ih (lo + 1) (by omega)⟩

/-- PutsWritesUpToTheZeroWord and PutspWritesPackedCharacters: a memory with a zero word. -/
theorem witness_string_with_an_end : ∃ a, State.reset.mem.read a = 0 := ⟨0, rfl⟩

/-- PutsWritesUpToTheZeroWord, PutspWritesPackedCharacters and UnterminatedStringIsRefused: a memory in
canonical form without a zero word. -/
theorem witness_string_without_an_end :
    ∃ s : State, s.mem.wf = true ∧ ∀ a, s.mem.read a ≠ 0 := by
  refine ⟨State.reset.setMem ⟨(List.range' 0 65536).map fun j => (j, (1 : Word))⟩,
    cellsWf_ones 65536 0 (by omega), fun a h => ?_⟩
  have one := lookupCell_ones 65536 0 a.toNat (Nat.zero_le _) (by have := a.isLt; omega)
  exact absurd (one.symm.trans h) (by decide)

/-- StepExecutesTheFetchedWord: away from `KBSR_ADDR`, and there with and without a character. -/
theorem witness_StepExecutesTheFetchedWord :
    (State.reset.run = .running ∧ State.reset.pc ≠ State.reset.cfg.kbsrAddr) ∧
      ((State.reset.setPc 0xFE00).run = .running ∧ (State.reset.setPc 0xFE00).cfg.wf = true ∧
        (State.reset.setPc 0xFE00).pc = State.reset.cfg.kbsrAddr ∧ (State.reset.setPc 0xFE00).inq = []) ∧
      ((State.reset.setPc 0xFE00).setInq [1]).inq ≠ [] := by
  decide

/-- A RUNNING state whose step answers a next state, and whose instruction is not a held GETC or IN. -/
def RunsNext (s : State) : Prop :=
  s.run = .running ∧ (∃ t, step s = .next t) ∧ ¬ held (decode (fetch s).1) (fetch s).2

theorem runsNext_of {s : State} (h : s.run = .running) {t : State} (ht : step s = .next t)
    (hd : decode (fetch s).1 ≠ .trapGetc ∧ decode (fetch s).1 ≠ .trapIn ∨ (fetch s).2.inq ≠ []) :
    RunsNext s := by
  refine ⟨h, ⟨t, ht⟩, ?_⟩
  rintro ⟨e | e, hq⟩
  · exact hd.elim (fun d => d.1 e) (fun d => d hq)
  · exact hd.elim (fun d => d.2 e) (fun d => d hq)

/-- StepLeavesPcByTheTable and StepWritesFlagsOnlyForListed, a state for each kind of row; they meet the
hypotheses of StepWritesOnlyNamedRegisters, RunEndsOnlyByHaltOrIllegalWord,
StepCompletesUnlessStringIsEndless and StepAppendsOutputAndTakesInput too. -/
theorem witness_step_statements :
    RunsNext (atReset 0x0E00) ∧ RunsNext (atReset 0x09FF) ∧ RunsNext (atReset 0xC080) ∧
      RunsNext (atReset 0x4803) ∧ RunsNext (atReset 0x40C0) ∧ RunsNext (atReset 0x41C0) ∧
      RunsNext (atReset 0x8000) ∧ RunsNext (atReset 0xDFFF) ∧ RunsNext (atReset 0xF0FF) ∧
      RunsNext (atReset 0x1021) ∧ RunsNext (atReset 0xF025) ∧
      RunsNext ((atReset 0xF020).setInq [0x61]) :=
  ⟨runsNext_of rfl rfl (.inl (by decide)), runsNext_of rfl rfl (.inl (by decide)),
    runsNext_of rfl rfl (.inl (by decide)), runsNext_of rfl rfl (.inl (by decide)),
    runsNext_of rfl rfl (.inl (by decide)), runsNext_of rfl rfl (.inl (by decide)),
    runsNext_of rfl rfl (.inl (by decide)), runsNext_of rfl rfl (.inl (by decide)),
    runsNext_of rfl rfl (.inl (by decide)), runsNext_of rfl rfl (.inl (by decide)),
    runsNext_of rfl rfl (.inl (by decide)), runsNext_of rfl rfl (.inr (by decide))⟩

/-- StepChangesMemoryOnlyByStoreOrPoll: a store, and an address that is neither its own nor a device's. -/
theorem witness_StepChangesMemoryOnlyByStoreOrPoll :
    (atReset 0x3001).run = .running ∧ (∃ t, step (atReset 0x3001) = .next t) ∧
      (0x3003 : Word) ≠ (atReset 0x3001).cfg.kbsrAddr ∧
      (0x3003 : Word) ≠ (atReset 0x3001).cfg.kbdrAddr ∧
      storedAddress (decode (fetch (atReset 0x3001)).1) (fetch (atReset 0x3001)).2 ≠ some 0x3003 ∧
      storedAddress (decode (fetch (atReset 0x3001)).1) (fetch (atReset 0x3001)).2 = some 0x3002 :=
  ⟨rfl, ⟨_, rfl⟩, by decide, by decide, by decide, by decide⟩

/-- TerminalStatesDoNotChange. -/
theorem witness_TerminalStatesDoNotChange :
    (State.reset.setRun .halted).run = .halted ∧
      (State.reset.setRun (.aborted (.badTrapVector 0))).run = .aborted (.badTrapVector 0) := by
  decide

/-- AbortLeavesTheExactState: both causes away from `KBSR_ADDR`, and the illegal word 0x8000 that a fetch
there reads while a character waits. -/
theorem witness_AbortLeavesTheExactState :
    (∃ t, step (atReset 0xF0FF) = .next t ∧ t.run = .aborted (.badTrapVector 0xFF) ∧
        (atReset 0xF0FF).pc ≠ (atReset 0xF0FF).cfg.kbsrAddr) ∧
      (∃ t, step (atReset 0xD001) = .next t ∧ t.run = .aborted (.illegalOpcode 0xD001)) ∧
      ∃ t, step ((State.reset.setPc 0xFE00).setInq [0x61]) = .next t ∧
        t.run = .aborted (.illegalOpcode 0x8000) ∧ (State.reset.setPc 0xFE00).pc =
          State.reset.cfg.kbsrAddr :=
  ⟨⟨_, rfl, by decide, by decide⟩, ⟨_, rfl, by decide⟩, ⟨_, rfl, by decide, by decide⟩⟩

/-- HeldStepWaitsForInput: GETC and IN. -/
theorem witness_HeldStepWaitsForInput :
    ((atReset 0xF020).run = .running ∧ held (decode (fetch (atReset 0xF020)).1) (atReset 0xF020)) ∧
      (atReset 0xF023).run = .running ∧ held (decode (fetch (atReset 0xF023)).1) (atReset 0xF023) :=
  ⟨⟨rfl, .inl (by decide), rfl⟩, rfl, .inr (by decide), rfl⟩

/-- LaterInputDoesNotAffectTheStep: a step that takes a character, two waiting. -/
theorem witness_LaterInputDoesNotAffectTheStep :
    2 ≤ ((atReset 0xF020).setInq [1, 2]).inq.length ∧
      ∃ t, step ((atReset 0xF020).setInq [1, 2]) = .next t :=
  ⟨by decide, _, rfl⟩

/-- StoreIsSeenByTheNextFetch: program P7's store. -/
theorem witness_StoreIsSeenByTheNextFetch :
    (placed 0x3001 0x3400).run = .running ∧
      (placed 0x3001 0x3400).pc ≠ (placed 0x3001 0x3400).cfg.kbsrAddr ∧
      (placed 0x3001 0x3400).pc + 1 ≠ (placed 0x3001 0x3400).cfg.kbsrAddr ∧
      decode ((placed 0x3001 0x3400).mem.read (placed 0x3001 0x3400).pc) = .st .r2 0 := by
  decide

/-- StepKeepsTheInvariant: a storing step from a state that meets it. -/
theorem witness_StepKeepsTheInvariant :
    (atReset 0x3001).inv ∧ ∃ t, step (atReset 0x3001) = .next t :=
  ⟨⟨by decide, by decide⟩, _, rfl⟩

/-- EveryRunKeepsTheInvariant, BootLeavesTheResetState and LoadedWordsReadBack: the image of T-RST-2, with a
character waiting; the run takes a step and is then given another. -/
theorem witness_boot_statements :
    Config.wf defaultConfig = true ∧
      imageWords [0x30, 0x02, 0xF0, 0x25] = some (0x3002 :: [0xF025]) ∧ 0 < [0xF025].length ∧
      (0x3002 : Word) + BitVec.ofNat 16 0 ≠ defaultConfig.kbsrAddr ∧
      ∃ s t, boot defaultConfig [0x61] [0x30, 0x02, 0xF0, 0x25] = .ok s ∧ step s = .next t ∧
        Reachable s (supplyInput [0x62] t) :=
  ⟨by decide, by decide, by decide, by decide, _, _, rfl, rfl,
    .move (.move .start (.step rfl)) (.input _)⟩

/-- ImageLoadsBigEndianWords: each clause at the edge of its range. -/
theorem witness_ImageLoadsBigEndianWords :
    ([0x30] : List Byte).length < 2 ∧
      (2 ≤ ([0x30, 0, 1] : List Byte).length ∧ ([0x30, 0, 1] : List Byte).length % 2 = 1) ∧
      (2 ≤ ([0xFF, 0xFF, 1, 2, 3, 4] : List Byte).length ∧
        ([0xFF, 0xFF, 1, 2, 3, 4] : List Byte).length % 2 = 0 ∧
        0x10000 < 0xFF * 256 + 0xFF + (([0xFF, 0xFF, 1, 2, 3, 4] : List Byte).length - 2) / 2) ∧
      (2 ≤ ([0xFF, 0xFF, 1, 2] : List Byte).length ∧ ([0xFF, 0xFF, 1, 2] : List Byte).length % 2 = 0 ∧
        0xFF * 256 + 0xFF + (([0xFF, 0xFF, 1, 2] : List Byte).length - 2) / 2 ≤ 0x10000) ∧
      2 ≤ ([0x30, 0] : List Byte).length ∧ ([0x30, 0] : List Byte).length % 2 = 0 := by
  decide

end Sys2Proof.Tests
end

/-! Sign extension of a field (R204). -/

namespace Sys2Proof.Machine

/-- R204's arithmetic reading of `sext`. -/
theorem toNat_sext {n : Nat} (hn : n ≤ 16) (v : BitVec n) :
    (sext v).toNat = if v.getLsbD (n - 1) then v.toNat + 65536 - 2 ^ n else v.toNat := by
  have hpow : 2 ^ n ≤ 2 ^ 16 := Nat.pow_le_pow_right (by decide) hn
  rw [sext, BitVec.toNat_signExtend, BitVec.toNat_setWidth_of_le hn, BitVec.msb_eq_getLsbD_last]
  split
  · exact (Nat.add_sub_assoc hpow v.toNat).symm
  · rfl

/-- Settles O8: the formula for every width by `toNat_sext`, the two examples by evaluation. -/
theorem signExtensionReplicatesTheSignBit : Obligations.SignExtensionReplicatesTheSignBit := by
  refine ⟨fun n _ hn v => toNat_sext hn v, ?_, ?_⟩
  · decide
  · decide

end Sys2Proof.Machine

/-! ## What executing an instruction can leave

`exec_answers` says once, in eight shapes, what an executed instruction can leave; the facts about
every step (`pc`, the flags, the registers, the run state, the invariant) follow from the shapes. -/

namespace Sys2Proof.Machine

/-- The states that some device-aware reads in a row leave. -/
inductive Reads (s : State) : State → Prop where
  | refl : Reads s s
  | read {u : State} (a : Word) (h : Reads s u) : Reads s (memRead a u).2

/-- Reads keep whatever one read keeps. -/
theorem Reads.keeps {α : Type} {f : State → α} (hf : ∀ a s, f (memRead a s).2 = f s)
    {s u : State} (h : Reads s u) : f u = f s := by
  induction h with
  | refl => rfl
  | read a _ ih => rw [hf, ih]

theorem Reads.reg {s u : State} (h : Reads s u) (r : Reg) : u.reg r = s.reg r :=
  h.keeps (f := (·.reg r)) fun a s => memRead_reg s a r

theorem Reads.pc {s u : State} (h : Reads s u) : u.pc = s.pc :=
  h.keeps fun a s => memRead_pc s a

theorem Reads.cond {s u : State} (h : Reads s u) : u.cond = s.cond :=
  h.keeps fun a s => memRead_cond s a

theorem Reads.run {s u : State} (h : Reads s u) : u.run = s.run :=
  h.keeps fun a s => memRead_run s a

theorem Reads.cfg {s u : State} (h : Reads s u) : u.cfg = s.cfg :=
  h.keeps fun a s => memRead_cfg s a

/-- Reads keep memory in its canonical form. -/
theorem Reads.mem_wf {s u : State} (h : Reads s u) (hs : s.mem.wf = true) : u.mem.wf = true := by
  induction h with
  | refl => exact hs
  | read a _ ih => exact memRead_wf _ a ih

/-- `pc` after an instruction executed in `s`, the state after its fetch (R14's table). -/
def pcAfter (i : Instr) (s : State) : Word :=
  match i with
  | .br n z p off9 => if branchTaken n z p s.cond then pcRelative9 off9 s else s.pc
  | .jmp base => s.reg base
  | .jsr off11 => pcRelative11 off11 s
  | .jsrr base => if base = .r7 then s.pc else s.reg base
  | _ => s.pc

/-- The run state after an instruction executed in `s` (R19, R129, R140). -/
def runAfter (i : Instr) (s : State) : RunState :=
  match i with
  | .trapHalt => .halted
  | .trapOther vect => .aborted (.badTrapVector vect)
  | .rti low12 => .aborted (.illegalOpcode (encode (.rti low12)))
  | .res low12 => .aborted (.illegalOpcode (encode (.res low12)))
  | _ => s.run

/-- What executing `i` in `s` can leave: a destination written after reads, a store after reads, a
jump, a call, a trap routine that only writes characters, an input routine that has its character,
an abort by a reserved opcode, or the held state. -/
inductive Effect (i : Instr) (s : State) : State → Prop where
  | result (dr : Reg) (v : Word) {u : State} (hflag : flagReg i = some dr)
      (hregs : writtenRegs i = [dr]) (hpc : pcAfter i s = s.pc) (hrun : runAfter i s = s.run)
      (reads : Reads s u) : Effect i s (writeDest dr v u)
  | store (a v : Word) {u : State} (haddr : storedAddress i s = some a) (hflag : flagReg i = none)
      (hpc : pcAfter i s = s.pc) (hrun : runAfter i s = s.run) (reads : Reads s u) :
      Effect i s (memWrite a v u)
  | jump (hflag : flagReg i = none) (hrun : runAfter i s = s.run) :
      Effect i s (s.setPc (pcAfter i s))
  | call (hflag : flagReg i = none) (hregs : writtenRegs i = [.r7]) (hrun : runAfter i s = s.run) :
      Effect i s ((trapLink s).setPc (pcAfter i s))
  | output (o : List Byte) (hout : s.out <+: o) (hflag : flagReg i = none)
      (hregs : writtenRegs i = [.r7]) (hpc : pcAfter i s = s.pc) :
      Effect i s (((trapLink s).setOut o).setRun (runAfter i s))
  | input (c : Byte) (rest o : List Byte) (hinq : s.inq = c :: rest) (hout : s.out <+: o)
      (hflag : flagReg i = some .r0) (hregs : writtenRegs i = [.r0, .r7])
      (hpc : pcAfter i s = s.pc) (hrun : runAfter i s = s.run) :
      Effect i s (writeDest .r0 (zext16 c) (((trapLink s).setInq rest).setOut o))
  | abort (hflag : flagReg i = none) (hpc : pcAfter i s = s.pc) :
      Effect i s (s.setRun (runAfter i s))
  | hold (hheld : held i s) (hrun : runAfter i s = s.run) : Effect i s (holdStep s)

/-- Every next state the outcome answers is an effect of `i`. -/
def Answers (i : Instr) (s : State) (o : Host.Outcome State Fault Refusal) : Prop :=
  ∀ t, o = .next t → Effect i s t

theorem Effect.answers {i : Instr} {s t : State} (e : Effect i s t) : Answers i s (.next t) := by
  rintro _ ⟨⟩
  exact e

/-- GETC takes a character, or is held. -/
theorem execTrapGetc_answers (s : State) : Answers .trapGetc s (execTrapGetc s) := by
  cases h : s.inq with
  | nil => exact execTrapGetc_held s h ▸ (Effect.hold ⟨.inl rfl, h⟩ rfl).answers
  | cons c rest =>
    rw [execTrapGetc_ready s h]
    exact (Effect.input c rest s.out h List.prefix_rfl rfl rfl rfl rfl).answers

/-- IN takes a character, after its prompt and before its echo, or is held. -/
theorem execTrapIn_answers (s : State) : Answers .trapIn s (execTrapIn s) := by
  cases h : s.inq with
  | nil => exact execTrapIn_held s h ▸ (Effect.hold ⟨.inr rfl, h⟩ rfl).answers
  | cons c rest =>
    have hout : s.out <+: s.out ++ s.cfg.inPrompt ++ [c] :=
      (List.prefix_append ..).trans (List.prefix_append ..)
    rw [execTrapIn_ready s h]
    exact (Effect.input c rest _ h hout rfl rfl rfl rfl).answers

/-- A refusal is no next state. -/
theorem refused_answers (i : Instr) (s : State) (r : Refusal) : Answers i s (.refused r) := by
  rintro _ ⟨⟩

/-- PUTS writes its string, or is refused. -/
theorem execTrapPuts_answers (s : State) : Answers .trapPuts s (execTrapPuts s) := by
  dsimp only [execTrapPuts]
  split
  · exact (Effect.output _ (List.prefix_append ..) rfl rfl rfl).answers
  · exact refused_answers _ _ _

/-- PUTSP writes its string, or is refused. -/
theorem execTrapPutsp_answers (s : State) : Answers .trapPutsp s (execTrapPutsp s) := by
  dsimp only [execTrapPutsp]
  split
  · exact (Effect.output _ (List.prefix_append ..) rfl rfl rfl).answers
  · exact refused_answers _ _ _

/-- A branch is a jump, to the next word when it is not taken. -/
theorem execBr_answers (n z p : Bool) (off9 : BitVec 9) (s : State) :
    Answers (.br n z p off9) s (execBr n z p off9 s) := by
  have e := (Effect.jump (i := .br n z p off9) (s := s) rfl rfl).answers
  by_cases h : branchTaken n z p s.cond = true
  · simpa [execBr, pcAfter, h] using e
  · have hstay : s.setPc s.pc = s := rfl
    simpa [execBr, pcAfter, h, hstay] using e

/-- JSRR is a call, whose target is the link when its base is R7 (D7). -/
theorem execJsrr_answers (base : Reg) (s : State) : Answers (.jsrr base) s (execJsrr base s) := by
  have e := (Effect.call (i := .jsrr base) (s := s) rfl rfl rfl).answers
  simpa [execJsrr, pcAfter] using e

/-- Every next state of an executed instruction is one of its effects. -/
theorem exec_answers (i : Instr) (s : State) : Answers i s (exec i s) := by
  cases i with
  | br n z p off9 => exact execBr_answers n z p off9 s
  | addReg dr _ _ => exact (Effect.result dr _ rfl rfl rfl rfl .refl).answers
  | addImm dr _ _ => exact (Effect.result dr _ rfl rfl rfl rfl .refl).answers
  | ld dr _ => exact (Effect.result dr _ rfl rfl rfl rfl (.read _ .refl)).answers
  | st _ _ => exact (Effect.store _ _ rfl rfl rfl rfl .refl).answers
  | jsr _ => exact (Effect.call rfl rfl rfl).answers
  | jsrr base => exact execJsrr_answers base s
  | andReg dr _ _ => exact (Effect.result dr _ rfl rfl rfl rfl .refl).answers
  | andImm dr _ _ => exact (Effect.result dr _ rfl rfl rfl rfl .refl).answers
  | ldr dr _ _ => exact (Effect.result dr _ rfl rfl rfl rfl (.read _ .refl)).answers
  | str _ _ _ => exact (Effect.store _ _ rfl rfl rfl rfl .refl).answers
  | rti _ => exact (Effect.abort rfl rfl).answers
  | not dr _ => exact (Effect.result dr _ rfl rfl rfl rfl .refl).answers
  | ldi dr _ => exact (Effect.result dr _ rfl rfl rfl rfl (.read _ (.read _ .refl))).answers
  | sti _ _ => exact (Effect.store _ _ rfl rfl rfl rfl (.read _ .refl)).answers
  | jmp _ => exact (Effect.jump rfl rfl).answers
  | res _ => exact (Effect.abort rfl rfl).answers
  | lea dr _ => exact (Effect.result dr _ rfl rfl rfl rfl .refl).answers
  | trapGetc => exact execTrapGetc_answers s
  | trapOut => exact (Effect.output _ (List.prefix_append ..) rfl rfl rfl).answers
  | trapPuts => exact execTrapPuts_answers s
  | trapIn => exact execTrapIn_answers s
  | trapPutsp => exact execTrapPutsp_answers s
  | trapHalt => exact (Effect.output _ (List.prefix_append ..) rfl rfl rfl).answers
  | trapOther _ => exact (Effect.output s.out List.prefix_rfl rfl rfl rfl).answers

end Sys2Proof.Machine

/-! ## What a step keeps: the parameters and canonical memory -/

namespace Sys2Proof.Machine

section
variable {i : Instr} {s t : State}

@[simp] theorem fetch_reg (s : State) (r : Reg) : (fetch s).2.reg r = s.reg r := by simp [fetch_eq]
@[simp] theorem fetch_pc (s : State) : (fetch s).2.pc = s.pc + 1 := by simp [fetch_eq]
@[simp] theorem fetch_cond (s : State) : (fetch s).2.cond = s.cond := by simp [fetch_eq]
@[simp] theorem fetch_run (s : State) : (fetch s).2.run = s.run := by simp [fetch_eq]
@[simp] theorem fetch_cfg (s : State) : (fetch s).2.cfg = s.cfg := by simp [fetch_eq]

/-- The fetch keeps memory in its canonical form. -/
theorem fetch_mem_wf (h : s.mem.wf = true) : (fetch s).2.mem.wf = true := by
  simpa [fetch_eq] using memRead_wf s s.pc h

/-- A step of a RUNNING machine is an effect of the fetched instruction on the fetched state. -/
theorem step_effect (hrun : s.run = .running) (hstep : step s = .next t) :
    Effect (decode (fetch s).1) (fetch s).2 t :=
  exec_answers _ _ t (step_running s hrun ▸ hstep)

/-- A HALTED machine idles (R19, R74). -/
theorem step_halted (h : s.run = .halted) : step s = .next s := by
  simp [step, h]

/-- An ABORTED machine answers its cause (R141). -/
theorem step_aborted {c : AbortCause} (h : s.run = .aborted c) : step s = .fault (.aborted c) := by
  simp [step, h]

/-- Only a RUNNING machine can change in a step (R19, R74). -/
theorem step_next_cases (h : step s = .next t) : s.run = .running ∨ t = s := by
  cases hrun : s.run with
  | running => exact .inl rfl
  | halted => exact .inr (Host.Outcome.next.inj (h.symm.trans (step_halted hrun)))
  | aborted c => cases h.symm.trans (step_aborted hrun)

theorem Effect.cfg (e : Effect i s t) : t.cfg = s.cfg := by
  cases e with
  | result _ _ _ _ _ _ reads => simpa using reads.cfg
  | store _ _ _ _ _ _ reads => simpa using reads.cfg
  | _ => simp

/-- An effect changes memory only by reads and a store, which keep its canonical form. -/
theorem Effect.mem_wf (e : Effect i s t) (h : s.mem.wf = true) : t.mem.wf = true := by
  cases e with
  | result _ _ _ _ _ _ reads => simpa using reads.mem_wf h
  | store a v _ _ _ _ reads => exact Memory.write_wf a v (reads.mem_wf h)
  | _ => simpa using h

/-- No step changes the parameters. -/
theorem step_cfg (h : step s = .next t) : t.cfg = s.cfg := by
  obtain hrun | rfl := step_next_cases h
  · exact (step_effect hrun h).cfg.trans (fetch_cfg s)
  · rfl

/-- Every step keeps memory in its canonical form. -/
theorem step_mem_wf (h : step s = .next t) (hs : s.mem.wf = true) : t.mem.wf = true := by
  obtain hrun | rfl := step_next_cases h
  · exact (step_effect hrun h).mem_wf (fetch_mem_wf hs)
  · exact hs

end

/-- Settles O55: a step keeps memory canonical (`step_mem_wf`) and the parameters as they are. -/
theorem stepKeepsTheInvariant : Obligations.StepKeepsTheInvariant := by
  rintro s t ⟨hmem, hcfg⟩ h
  exact ⟨step_mem_wf h hmem, step_cfg h ▸ hcfg⟩

end Sys2Proof.Machine

/-! ## Canonical memory is extensional -/

namespace Sys2Proof.Machine

/-- A canonical list with keys from `lo` up lists no key below `lo`. -/
theorem lookupCell_eq_zero_of_lt {k : Nat} :
    ∀ {lo : Nat} {l : List Cell}, cellsWf lo l = true → k < lo → lookupCell k l = 0
  | _, [], _, _ => rfl
  | _, (j, _) :: _, wf, hk => by
    obtain ⟨hj, -, -, hrest⟩ := (cellsWf_cons ..).mp wf
    rw [lookupCell, if_neg (by omega)]
    exact lookupCell_eq_zero_of_lt hrest (by omega)

/-- Of two canonical lists with equal look-ups, one's head is not below the other's keys. -/
theorem head_key_ge {lo lo' j : Nat} {v : Word} {rest l : List Cell}
    (wf : cellsWf lo ((j, v) :: rest) = true) (wf' : cellsWf lo' l = true)
    (e : ∀ k < 65536, lookupCell k ((j, v) :: rest) = lookupCell k l) : lo' ≤ j := by
  obtain ⟨-, hj, hv, -⟩ := (cellsWf_cons ..).mp wf
  by_contra hlt
  have hhead := e j hj
  rw [lookupCell, if_pos rfl, lookupCell_eq_zero_of_lt wf' (by omega)] at hhead
  exact hv hhead

/-- A canonical list in which every look-up is 0 lists nothing. -/
theorem cells_eq_nil {lo : Nat} {l : List Cell} (wf : cellsWf lo l = true)
    (e : ∀ k < 65536, lookupCell k l = 0) : l = [] := by
  cases l with
  | nil => rfl
  | cons c rest =>
    obtain ⟨-, hj, hv, -⟩ := (cellsWf_cons ..).mp wf
    have hhead := e c.1 hj
    rw [lookupCell, if_pos rfl] at hhead
    exact absurd hhead hv

/-- Canonical lists of cells with the same look-ups are equal. -/
theorem cells_ext :
    ∀ {lo : Nat} {l l' : List Cell}, cellsWf lo l = true → cellsWf lo l' = true →
      (∀ k < 65536, lookupCell k l = lookupCell k l') → l = l'
  | _, [], [], _, _, _ => rfl
  | _, [], _ :: _, _, wf', e => (cells_eq_nil wf' fun k hk => (e k hk).symm).symm
  | _, _ :: _, [], wf, _, e => cells_eq_nil wf e
  | _, (j, v) :: rest, (j', v') :: rest', wf, wf', e => by
    obtain ⟨-, hj, hv, hrest⟩ := (cellsWf_cons ..).mp wf
    obtain ⟨-, hj', hv', hrest'⟩ := (cellsWf_cons ..).mp wf'
    have hle := head_key_ge wf ((cellsWf_cons j' j' v' rest').mpr ⟨le_rfl, hj', hv', hrest'⟩) e
    have hge := head_key_ge wf' ((cellsWf_cons j j v rest).mpr ⟨le_rfl, hj, hv, hrest⟩)
      fun k hk => (e k hk).symm
    obtain rfl : j = j' := by omega
    obtain rfl : v = v' := by simpa [lookupCell] using e j hj
    congr 1
    refine cells_ext hrest hrest' fun k hk => ?_
    by_cases hkj : k ≤ j
    · rw [lookupCell_eq_zero_of_lt hrest (by omega), lookupCell_eq_zero_of_lt hrest' (by omega)]
    · simpa [lookupCell, show j ≠ k by omega] using e k hk

/-- Settles O14: every number below 2^16 is an address, so equal reads are equal look-ups. -/
theorem canonicalMemoryIsExtensional : Obligations.CanonicalMemoryIsExtensional := by
  rintro ⟨l⟩ ⟨l'⟩ wf wf' e
  congr 1
  refine cells_ext wf wf' fun k hk => ?_
  simpa [Memory.read, Nat.mod_eq_of_lt hk] using e (BitVec.ofNat 16 k)

end Sys2Proof.Machine

/-! ## Runs and the start state -/

namespace Sys2Proof.Machine

/-- A property of the start that every move keeps holds of every state of the run. -/
theorem Reachable.preserves {P : State → Prop} {s t : State} (h : Reachable s t)
    (hstart : P s) (hmove : ∀ u v, Move u v → P u → P v) : P t := by
  induction h with
  | start => exact hstart
  | move _ m ih => exact hmove _ _ m ih

/-- A step keeps the invariant and the parameters, and appending input changes neither. -/
theorem Move.keeps_inv_cfg {cfg : Config} {s t : State} (m : Move s t)
    (h : s.inv ∧ s.cfg = cfg) : t.inv ∧ t.cfg = cfg := by
  cases m with
  | step hstep => exact ⟨stepKeepsTheInvariant s t h.1 hstep, (step_cfg hstep).trans h.2⟩
  | input cs => exact h

/-- A file that loads is an origin word with the words that fit from there on, and the load only
stores them (R173). -/
theorem loadImage_eq_ok {bytes : List Byte} {s t : State} (h : loadImage bytes s = .ok t) :
    ∃ origin ws, imageWords bytes = some (origin :: ws) ∧ origin.toNat + ws.length ≤ 0x10000 ∧
      t = s.setMem (storeWords s.mem origin ws) := by
  unfold loadImage at h
  split at h
  · split at h <;> cases h
  · cases h
  · next origin ws hwords =>
    split at h
    · next hfit =>
      cases h
      exact ⟨origin, ws, hwords, hfit, rfl⟩
    · cases h

/-- Counted from `a + 1`, `a` is the last of the 65536 addresses. -/
theorem toNat_sub_succ_self (a : Word) : (a - (a + 1)).toNat = 65535 := by
  bv_omega

/-- Words stored from `a` on read back there, and every other word reads as before. -/
theorem read_storeWords (b : Word) :
    ∀ (ws : List Word) (m : Memory) (a : Word), ws.length ≤ 65536 →
      (storeWords m a ws).read b = ws.getD (b - a).toNat (m.read b)
  | [], _, _, _ => rfl
  | w :: ws, m, a, h => by
    have hlen : ws.length ≤ 65535 := Nat.le_of_succ_le_succ h
    rw [storeWords, read_storeWords b ws _ _ (by omega), Memory.read_write]
    by_cases hb : b = a
    · subst hb
      rw [if_pos rfl, toNat_sub_succ_self, List.getD_eq_default _ _ hlen, BitVec.sub_self]
      rfl
    · have hnext : (b - a).toNat = (b - (a + 1)).toNat + 1 := by bv_omega
      simp [hb, hnext]

/-- A boot that succeeds leaves the launch's reset state with the image stored. -/
theorem boot_eq_ok {cfg : Config} {input image : List Byte} {s : State}
    (h : boot cfg input image = .ok s) :
    ∃ origin ws, imageWords image = some (origin :: ws) ∧ origin.toNat + ws.length ≤ 0x10000 ∧
      s = { State.reset with inq := input, cfg := cfg, mem := storeWords ⟨[]⟩ origin ws } :=
  loadImage_eq_ok h

/-- Settles O54: memory is empty at reset, and the default addresses differ. -/
theorem resetMeetsTheInvariant : Obligations.ResetMeetsTheInvariant :=
  ⟨Memory.empty_wf, by decide⟩

/-- Every general register is 0 at reset (R25). -/
@[simp] theorem reset_reg (r : Reg) : State.reset.reg r = 0 := by
  cases r <;> rfl

/-- Settles O58: the registers by `reset_reg`, memory by `Memory.read_empty`. -/
theorem resetValues : Obligations.ResetValues :=
  ⟨reset_reg, rfl, rfl, rfl, rfl, Memory.read_empty⟩

/-- Settles O57: the image is stored in an empty memory, so `read_storeWords` gives every word. -/
theorem bootLeavesTheResetState : Obligations.BootLeavesTheResetState := by
  intro cfg input image s h
  obtain ⟨origin, ws, hwords, hfit, rfl⟩ := boot_eq_ok h
  refine ⟨reset_reg, rfl, rfl, rfl, rfl, rfl, rfl, origin, ws, hwords, fun a => ?_⟩
  exact read_storeWords a ws ⟨[]⟩ origin (by omega)

/-- Settles O56: `boot` establishes the invariant, and every move keeps it. -/
theorem everyRunKeepsTheInvariant : Obligations.EveryRunKeepsTheInvariant := by
  intro cfg input image s t hcfg hboot hreach
  refine hreach.preserves (P := fun u => u.inv ∧ u.cfg = cfg) ?_ fun _ _ m => m.keeps_inv_cfg
  obtain ⟨origin, ws, -, -, rfl⟩ := boot_eq_ok hboot
  exact ⟨⟨storeWords_wf ws Memory.empty_wf, hcfg⟩, rfl⟩

/-- Settles O47 by `step_halted` and `step_aborted`. -/
theorem terminalStatesDoNotChange : Obligations.TerminalStatesDoNotChange :=
  ⟨fun _ h => step_halted h, fun _ _ h => step_aborted h⟩

end Sys2Proof.Machine

/-! ## Flags, registers and `pc` after a step -/

namespace Sys2Proof.Machine

/-- The classification of a word is its flag by R17's ranges. -/
theorem flagOf_classify (v : Word) : FlagOf v (classify v) := by
  have hzero : v = 0 ↔ v.toNat = 0 := BitVec.toNat_inj.symm
  have hsign : v[15] = true ↔ 0x8000 ≤ v.toNat := by
    have hmsb : v[15] = decide (0x8000 ≤ v.toNat) := BitVec.msb_eq_decide v
    rw [hmsb, decide_eq_true_iff]
  simp only [FlagOf, classify, hzero, hsign]
  split_ifs with hz hn <;> simp only [true_iff, false_iff] <;> omega

/-- Settles O10 by `flagOf_classify`. -/
theorem setccClassifiesTheRegister : Obligations.SetccClassifiesTheRegister :=
  fun r s => ⟨flagOf_classify (s.reg r), rfl⟩

section
variable {i : Instr} {s t : State}

/-- The effect of an instruction that is not held leaves `cond` the flag of the register R18 names
for it, and otherwise alone. -/
theorem Effect.cond (e : Effect i s t) (hheld : ¬ held i s) :
    (∀ r, flagReg i = some r → FlagOf (t.reg r) t.cond) ∧
      (flagReg i = none → t.cond = s.cond) := by
  cases e with
  | result dr v hflag => simpa [hflag] using flagOf_classify v
  | store a v _ hflag _ _ reads => simpa [hflag] using reads.cond
  | jump hflag => simp [hflag]
  | call hflag => simp [hflag]
  | output _ _ hflag => simp [hflag]
  | input c _ _ _ _ hflag => simpa [hflag] using flagOf_classify (zext16 c)
  | abort hflag => simp [hflag]
  | hold h => exact absurd h hheld

/-- An effect keeps every register but those its instruction may write. -/
theorem Effect.keepsRegs (e : Effect i s t) : KeepsRegs (writtenRegs i) s t := by
  intro r hr
  cases e with
  | result dr _ _ hregs _ _ reads => simp [show r ≠ dr by simpa [hregs] using hr, reads.reg]
  | store _ _ _ _ _ _ reads => simp [reads.reg]
  | call _ hregs => simp [show r ≠ .r7 by simpa [hregs] using hr]
  | output _ _ _ hregs => simp [show r ≠ .r7 by simpa [hregs] using hr]
  | input _ _ _ _ _ _ hregs =>
    obtain ⟨h0, h7⟩ : r ≠ .r0 ∧ r ≠ .r7 := by simpa [hregs] using hr
    simp [h0, h7]
  | _ => simp

/-- The effect of an instruction that is not held leaves `pc` as R14's table says. -/
theorem Effect.pc (e : Effect i s t) (hheld : ¬ held i s) : t.pc = pcAfter i s := by
  cases e with
  | result _ _ _ _ hpc _ reads => simp [reads.pc, hpc]
  | store _ _ _ _ hpc _ reads => simp [reads.pc, hpc]
  | jump | call => simp
  | output _ _ _ _ hpc => simp [hpc]
  | input _ _ _ _ _ _ _ hpc => simp [hpc]
  | abort _ hpc => simp [hpc]
  | hold h => exact absurd h hheld

theorem Effect.run (e : Effect i s t) : t.run = runAfter i s := by
  cases e with
  | result _ _ _ _ _ hrun reads => simp [reads.run, hrun]
  | store _ _ _ _ _ hrun reads => simp [reads.run, hrun]
  | jump _ hrun => simp [hrun]
  | call _ _ hrun => simp [hrun]
  | input _ _ _ _ _ _ _ _ hrun => simp [hrun]
  | hold _ hrun => simp [hrun]
  | output | abort => simp

end

/-- Settles O43 by `Effect.cond`, the fetch leaving `cond` alone. -/
theorem stepWritesFlagsOnlyForListed : Obligations.StepWritesFlagsOnlyForListed := by
  intro s t hrun hstep hheld
  obtain ⟨hlisted, hother⟩ := (step_effect hrun hstep).cond hheld
  split
  next r hr => exact hlisted r hr
  next hnone => exact (hother hnone).trans (fetch_cond s)

/-- Settles O44 by `Effect.keepsRegs`, the fetch changing no register. -/
theorem stepWritesOnlyNamedRegisters : Obligations.StepWritesOnlyNamedRegisters := by
  intro s t hrun hstep r hr
  simpa using (step_effect hrun hstep).keepsRegs r hr

end Sys2Proof.Machine

/-! ## Address sums and R14's table -/

namespace Sys2Proof.Machine

/-- An address sum is the addition of the offset as a word. -/
theorem addrSum_iff (ea base : Word) (off : Int) :
    AddrSum ea base off ↔ ea = base + BitVec.ofInt 16 off := by
  have hsum : base + BitVec.ofInt 16 off = BitVec.ofInt 16 (base.toNat + off) := by
    rw [BitVec.ofInt_add]
    simp
  rw [hsum, ← BitVec.toNat_inj, AddrSum, BitVec.toNat_ofInt]
  omega

/-- The word after the instruction. -/
theorem addrSum_succ (pc : Word) : AddrSum (pc + 1) pc 1 :=
  (addrSum_iff ..).mpr rfl

/-- A sign-extended offset from the word after the instruction. -/
theorem addrSum_succ_sext {n : Nat} (pc : Word) (off : BitVec n) :
    AddrSum (pc + 1 + sext off) pc (1 + off.toInt) := by
  rw [addrSum_iff, BitVec.ofInt_add, ← BitVec.add_assoc]
  rfl

/-- Settles O42: `pcAfter`, read from the state before the fetch, is the table. -/
theorem stepLeavesPcByTheTable : Obligations.StepLeavesPcByTheTable := by
  intro s t hrun hstep hheld
  have hpc := (step_effect hrun hstep).pc hheld
  have hfail := (step_effect hrun hstep).run
  generalize decode (fetch s).1 = i at hpc hfail ⊢
  cases i with
  | br n z p off9 =>
    simp only [pcAfter, fetch_cond, pcRelative9, fetch_pc] at hpc
    dsimp only
    split_ifs at hpc ⊢
    · exact hpc ▸ addrSum_succ_sext s.pc off9
    · exact hpc ▸ addrSum_succ s.pc
  | jmp base => simpa [pcAfter] using hpc
  | jsr off11 =>
    simp only [pcAfter, pcRelative11, fetch_pc] at hpc
    exact hpc ▸ addrSum_succ_sext s.pc off11
  | jsrr base =>
    simp only [pcAfter, fetch_reg, fetch_pc] at hpc
    dsimp only
    split_ifs at hpc ⊢
    · exact hpc ▸ addrSum_succ s.pc
    · exact hpc
  | rti | res | trapOther =>
    simp only [pcAfter, fetch_pc] at hpc
    exact ⟨hpc ▸ addrSum_succ s.pc, _, hfail⟩
  | _ =>
    simp only [pcAfter, fetch_pc] at hpc
    exact hpc ▸ addrSum_succ s.pc

end Sys2Proof.Machine

/-! ## The run state after a step -/

namespace Sys2Proof.Machine

/-- The instructions whose execution is the fatal decode error (R130, R131, R132). -/
def aborts : Instr → Bool
  | .rti _ | .res _ | .trapOther _ => true
  | _ => false

/-- TRAP aborts exactly for the vectors outside R121's six. -/
theorem aborts_decodeTrap (v : BitVec 8) :
    aborts (decodeTrap v) = true ↔ ¬ (0x20 ≤ v.toNat ∧ v.toNat ≤ 0x25) := by
  unfold decodeTrap
  split_ifs with h0 h1 h2 h3 h4 h5
  case neg =>
    simp only [aborts, true_iff]
    bv_omega
  all_goals
    subst v
    decide

/-- A bit of a word as arithmetic. -/
theorem getElem_eq_decide (w : Word) (k : Nat) (hk : k < 16) :
    w[k] = decide (w.toNat / 2 ^ k % 2 = 1) := by
  rw [BitVec.getElem_eq_testBit_toNat, Nat.testBit_eq_decide_div_mod_eq]

/-- The words whose instruction is the fatal decode error are R57's: the opcode bits fix the range a
word lies in, and TRAP's vector is its low byte. -/
theorem aborts_decode (w : Word) : aborts (decode w) = true ↔ illegalWord w := by
  have hlt := w.isLt
  have hv : (field w 0 8).toNat = w.toNat % 256 := by simp [field]
  unfold decode
  split <;> next h15 h14 h13 h12 =>
    simp only [getElem_eq_decide, decide_eq_true_iff, decide_eq_false_iff_not] at h15 h14 h13 h12
    simp only [↓apply_ite aborts, ↓aborts_decodeTrap, hv, aborts, ite_self, Bool.false_eq_true,
      true_iff, false_iff, illegalWord]
    omega

/-- The run state after an executed instruction, by its three kinds: HALT, the fatal decode error,
and every other. -/
theorem runAfter_cases (i : Instr) (s : State) :
    (i = .trapHalt ∧ runAfter i s = .halted) ∨
      (i ≠ .trapHalt ∧ aborts i = true ∧ ∃ c, runAfter i s = .aborted c) ∨
      (i ≠ .trapHalt ∧ aborts i = false ∧ runAfter i s = s.run) := by
  cases i with
  | trapHalt => exact .inl ⟨rfl, rfl⟩
  | rti | res | trapOther => exact .inr (.inl ⟨nofun, rfl, _, rfl⟩)
  | _ => exact .inr (.inr ⟨nofun, rfl, rfl⟩)

/-- Settles O46: the run state after the step is `runAfter` of the decoded instruction. -/
theorem runEndsOnlyByHaltOrIllegalWord : Obligations.RunEndsOnlyByHaltOrIllegalWord := by
  intro s t hrun hstep
  have ht := (step_effect hrun hstep).run
  simp only [← aborts_decode, State.failed]
  obtain ⟨hhalt, hafter⟩ | ⟨hhalt, habort, c, hafter⟩ | ⟨hhalt, habort, hafter⟩ :=
    runAfter_cases (decode (fetch s).1) (fetch s).2
  · rw [hafter] at ht
    simp [ht, hhalt, aborts]
  · rw [hafter] at ht
    simp [ht, hhalt, habort]
  · rw [hafter, fetch_run, hrun] at ht
    simp [ht, hhalt, habort]

end Sys2Proof.Machine

/-! ## Device-aware reads, and what a step changes in memory -/

namespace Sys2Proof.Machine

section
variable {i : Instr} {s t : State} {a : Word}

/-- The poll does what R148 says: a character is taken and the device words are set, or the status
word is cleared. -/
theorem polled_kbdPoll (s : State) : Polled s (kbdPoll s) := by
  cases h : s.inq with
  | nil => simp [Polled, h, kbdPoll_nil s h]
  | cons c rest => simp [Polled, h, kbdPoll_cons s h, zext16]

/-- A poll changes only the two device words. -/
theorem Polled.read_mem (h : Polled s t) (hstatus : a ≠ s.cfg.kbsrAddr)
    (hdata : a ≠ s.cfg.kbdrAddr) : t.mem.read a = s.mem.read a := by
  unfold Polled at h
  split at h
  · simpa [hstatus] using h.2 a
  · simpa [hstatus, hdata] using h.2 a

/-- A read away from `KBSR_ADDR` returns the stored word and changes nothing. -/
theorem memRead_eq_plain (h : a ≠ s.cfg.kbsrAddr) : memRead a s = (s.mem.read a, s) :=
  if_neg h

/-- R31: the device-aware read. -/
theorem readAt_memRead (a : Word) (s : State) : ReadAt a (memRead a s).1 s (memRead a s).2 := by
  refine ⟨memRead_fst s a, fun h => ?_, fun h => ?_⟩
  · rw [memRead_poll s h]
    exact polled_kbdPoll s
  · rw [memRead_plain s h]
    exact ⟨fun _ => rfl, rfl⟩

/-- A device-aware read changes only memory and the waiting input. -/
theorem memRead_frame (a : Word) (s : State) :
    (memRead a s).2 = { s with mem := (memRead a s).2.mem, inq := (memRead a s).2.inq } := by
  by_cases h : a = s.cfg.kbsrAddr
  · obtain ⟨m, hm⟩ := kbdPoll_eq s
    rw [memRead_poll s h, hm]
    rfl
  · rw [memRead_plain s h]

/-- A device-aware read of any address changes only the two device words. -/
theorem memRead_read_mem (b : Word) (hstatus : a ≠ s.cfg.kbsrAddr) (hdata : a ≠ s.cfg.kbdrAddr) :
    (memRead b s).2.mem.read a = s.mem.read a := by
  obtain ⟨-, hpoll, hplain⟩ := readAt_memRead b s
  by_cases hb : b = s.cfg.kbsrAddr
  · exact (hpoll hb).read_mem hstatus hdata
  · exact (hplain hb).1 a

/-- Reads in a row change only the two device words. -/
theorem Reads.read_mem (h : Reads s t) (hstatus : a ≠ s.cfg.kbsrAddr)
    (hdata : a ≠ s.cfg.kbdrAddr) : t.mem.read a = s.mem.read a := by
  induction h with
  | refl => rfl
  | read b hu ih => rw [memRead_read_mem b (hu.cfg ▸ hstatus) (hu.cfg ▸ hdata), ih]

/-- An effect changes only the two device words and the word its instruction stores to. -/
theorem Effect.read_mem (e : Effect i s t) (hstatus : a ≠ s.cfg.kbsrAddr)
    (hdata : a ≠ s.cfg.kbdrAddr) (hstored : storedAddress i s ≠ some a) :
    t.mem.read a = s.mem.read a := by
  cases e with
  | result _ _ _ _ _ _ reads => exact reads.read_mem hstatus hdata
  | store b _ haddr _ _ _ reads =>
    have hab : a ≠ b := fun h => hstored (h ▸ haddr)
    simp [hab, reads.read_mem hstatus hdata]
  | _ => simp

/-- The fetch changes only the two device words. -/
theorem fetch_read_mem (hstatus : a ≠ s.cfg.kbsrAddr) (hdata : a ≠ s.cfg.kbdrAddr) :
    (fetch s).2.mem.read a = s.mem.read a := by
  simpa [fetch_eq] using memRead_read_mem s.pc hstatus hdata

/-- Away from `KBSR_ADDR` a RUNNING machine executes the word stored at `pc`. -/
theorem step_plain (hrun : s.run = .running) (hpc : s.pc ≠ s.cfg.kbsrAddr) :
    step s = exec (decode (s.mem.read s.pc)) (s.setPc (s.pc + 1)) := by
  rw [step_running s hrun, fetch_plain s hpc]

/-- Offset 0 names the word after the instruction. -/
theorem pcRelative9_zero (s : State) : pcRelative9 0 s = s.pc :=
  BitVec.add_zero s.pc

/-- Counted from `a`, the `k`-th address after it is the `k`-th. -/
theorem toNat_add_ofNat_sub_self (a : Word) {k : Nat} (hk : k < 65536) :
    (a + BitVec.ofNat 16 k - a).toNat = k := by
  rw [BitVec.add_comm, BitVec.add_sub_cancel, BitVec.toNat_ofNat, Nat.mod_eq_of_lt hk]

end

/-- Settles O12 by `readAt_memRead` and `memRead_frame`. -/
theorem deviceAwareReadReturnsTheWord : Obligations.DeviceAwareReadReturnsTheWord :=
  fun a s => ⟨readAt_memRead a s, memRead_frame a s⟩

/-- Settles O45: the fetch and the effect of the fetched instruction each keep the word. -/
theorem stepChangesMemoryOnlyByStoreOrPoll : Obligations.StepChangesMemoryOnlyByStoreOrPoll := by
  intro s t hrun hstep a hstatus hdata hstored
  have hexec : t.mem.read a = (fetch s).2.mem.read a :=
    (step_effect hrun hstep).read_mem (by rwa [fetch_cfg]) (by rwa [fetch_cfg]) hstored
  exact hexec.trans (fetch_read_mem hstatus hdata)

/-- Settles O53: the store leaves `pc` at the word it has written, and the next fetch reads it. -/
theorem storeIsSeenByTheNextFetch : Obligations.StoreIsSeenByTheNextFetch := by
  intro s sr hrun hpc hnext hdecode
  have hstep : step s = .next (memWrite (s.pc + 1) (s.reg sr) (s.setPc (s.pc + 1))) := by
    rw [step_plain hrun hpc, hdecode, exec, execSt, pcRelative9_zero]
    rfl
  refine ⟨_, hstep, rfl, hrun, ?_⟩
  rw [fetch_plain _ hnext]
  simp

/-- Settles O60: the start state's word is the image's by `read_storeWords`, and the read is plain. -/
theorem loadedWordsReadBack : Obligations.LoadedWordsReadBack := by
  intro cfg input image s origin ws k hboot hwords hk haddr
  obtain ⟨origin', ws', hwords', hfit, rfl⟩ := boot_eq_ok hboot
  obtain ⟨rfl, rfl⟩ : origin = origin' ∧ ws = ws' := by simpa using hwords.symm.trans hwords'
  have hlen : ws.length ≤ 65536 := by omega
  rw [memRead_eq_plain haddr, read_storeWords _ ws _ _ hlen,
    toNat_add_ofNat_sub_self origin (by omega), List.getD_eq_getElem _ _ hk]

end Sys2Proof.Machine

/-! ## Fields and masks of a word -/

namespace Sys2Proof

section
variable {w w' m v k : Word} {lo len : Nat}

@[simp] theorem Reg.ofBits_toBits (r : Reg) : Reg.ofBits r.toBits = r := by
  cases r <;> rfl

@[simp] theorem Reg.toBits_ofBits : ∀ b : BitVec 3, (Reg.ofBits b).toBits = b := by
  decide

@[simp] theorem field_or (a b : Word) :
    field (a ||| b) lo len = field a lo len ||| field b lo len :=
  BitVec.extractLsb'_or

@[simp] theorem field_and (a b : Word) :
    field (a &&& b) lo len = field a lo len &&& field b lo len :=
  BitVec.extractLsb'_and

/-- The field of a literal, in the form `simp` evaluates. -/
@[simp] theorem field_ofNat (n lo len : Nat) :
    field (BitVec.ofNat 16 n) lo len = (BitVec.ofNat 16 n).extractLsb' lo len := rfl

@[simp] theorem getElem_place {n j : Nat} (x : BitVec n) (hj : j < 16) :
    (place x lo)[j] = (!decide (j < lo) && x.getLsbD (j - lo)) := by
  simp [place]

/-- The field at its own place. -/
@[simp] theorem field_place (x : BitVec len) (hlen : lo + len ≤ 16) :
    field (place x lo) lo len = x := by
  ext j hj
  have hbit : lo + j < 16 := by omega
  simp [field, BitVec.getLsbD_eq_getElem hbit, BitVec.getLsbD_eq_getElem hj]

/-- A field at another place is zero. -/
@[simp] theorem field_place_disjoint {n lo' : Nat} (x : BitVec n) (hlen : lo + len ≤ 16)
    (h : lo' + n ≤ lo ∨ lo + len ≤ lo') : field (place x lo') lo len = 0 := by
  ext j hj
  have hbit : lo + j < 16 := by omega
  obtain habove | hbelow := h
  · simp [field, BitVec.getLsbD_eq_getElem hbit,
      BitVec.getLsbD_of_ge x (lo + j - lo') (by omega)]
  · simp [field, BitVec.getLsbD_eq_getElem hbit, show lo + j < lo' by omega]

/-- A field put back where it was taken from. -/
theorem place_field (w : Word) :
    place (field w lo len) lo = w &&& place (BitVec.allOnes len) lo := by
  ext j hj
  by_cases hlo : j < lo
  · simp [hlo]
  · obtain ⟨d, rfl⟩ := Nat.exists_eq_add_of_le (Nat.le_of_not_lt hlo)
    simp [field, BitVec.getLsbD_eq_getElem hj, Bool.and_comm]

/-- A bit of a word is its field of length one. -/
theorem ofBool_getElem {j : Nat} (hj : j < 16) : BitVec.ofBool w[j] = field w j 1 := by
  ext d hd
  obtain rfl : d = 0 := by omega
  simp [field, BitVec.getLsbD_eq_getElem hj]

/-- A masked word has the match's bits wherever the mask is set. -/
theorem getElem_of_masked (h : w &&& m = v) (j : Nat) (hj : j < 16) (hm : m[j] = true) :
    w[j] = v[j] := by
  subst h
  rw [BitVec.getElem_and, hm, Bool.and_true]

/-- A masked word has the match's field wherever the mask covers it. -/
theorem field_of_masked (h : w &&& m = v) (hm : field m lo len = BitVec.allOnes len) :
    field w lo len = field v lo len := by
  rw [← h, field_and, hm, BitVec.and_allOnes]

/-- A word that matches under a mask matches under every part of it. -/
theorem masked_part (h : w &&& m = v) (hk : m &&& k = k) : w &&& k = v &&& k := by
  rw [← h, BitVec.and_assoc, hk]

/-- Words that agree under a mask agree under every part of it. -/
theorem masked_congr (e : w' &&& m = w &&& m) (hk : m &&& k = k) : w' &&& k = w &&& k :=
  (masked_part e hk).trans (masked_part rfl hk).symm

/-- Words that agree under a mask have the same fields where it covers them. -/
theorem field_congr (e : w' &&& m = w &&& m) (hm : field m lo len = BitVec.allOnes len) :
    field w' lo len = field w lo len :=
  (field_of_masked e hm).trans (field_of_masked rfl hm).symm

theorem regField_congr (e : w' &&& m = w &&& m) (hm : field m lo 3 = BitVec.allOnes 3) :
    regField w' lo = regField w lo :=
  congrArg Reg.ofBits (field_congr e hm)

/-- What a word shows under a mask, joined with what it shows under another. -/
theorem or_masked (h : w &&& m = v) (k : Word) : v ||| (w &&& k) = w &&& (m ||| k) := by
  rw [BitVec.and_or_distrib_left, h]

/-- A mask extended by a field matches when the field has the value. -/
theorem masked_field (h : w &&& m = v) {x : BitVec len} (hx : field w lo len = x) :
    w &&& (m ||| place (BitVec.allOnes len) lo) = v ||| place x lo := by
  rw [← hx, place_field w, or_masked h]

/-- A mask extended by a bit matches when the bit has the value. -/
theorem masked_bit {j : Nat} {b : Bool} {hj : j < 16} (h : w &&& m = v) (hb : w[j] = b) :
    w &&& (m ||| place (BitVec.allOnes 1) j) = v ||| place (BitVec.ofBool b) j :=
  masked_field h (by rw [← hb, ofBool_getElem hj])

/-- The opcode under its mask, from its four bits. -/
theorem opcode_of_bits {a b c d : Bool} (h15 : w[15] = a) (h14 : w[14] = b) (h13 : w[13] = c)
    (h12 : w[12] = d) :
    w &&& 0xF000 = 0 ||| place (BitVec.ofBool a) 15 ||| place (BitVec.ofBool b) 14 |||
      place (BitVec.ofBool c) 13 ||| place (BitVec.ofBool d) 12 :=
  have hnone : w &&& 0 = 0 := BitVec.and_zero
  masked_bit (masked_bit (masked_bit (masked_bit hnone h15) h14) h13) h12

/-- Flipping bits of a mask changes nothing outside it. -/
theorem xor_and_compl (w m k : Word) : (w ^^^ (m &&& k)) &&& ~~~ k = w &&& ~~~ k := by
  ext j hj
  cases hk : k[j] <;> simp [hk]

end

end Sys2Proof

/-! ## The decoder and the rows of the opcode table

`MatchesRow` states R55's table; `MatchesRow.decode_eq` and `matchesRow_decode` say that the decoder
answers exactly the row a word matches. The statements about the decoder follow from these two. -/

namespace Sys2Proof

/-- R55: `w` matches the row of `i`, and the operands of `i` are the row's fields of `w`. -/
inductive MatchesRow (w : Word) : Instr → Prop where
  | br (h : w &&& 0xF000 = 0x0000) : MatchesRow w (.br w[11] w[10] w[9] (field w 0 9))
  | addReg (h : w &&& 0xF020 = 0x1000) :
      MatchesRow w (.addReg (regField w 9) (regField w 6) (regField w 0))
  | addImm (h : w &&& 0xF020 = 0x1020) :
      MatchesRow w (.addImm (regField w 9) (regField w 6) (field w 0 5))
  | ld (h : w &&& 0xF000 = 0x2000) : MatchesRow w (.ld (regField w 9) (field w 0 9))
  | st (h : w &&& 0xF000 = 0x3000) : MatchesRow w (.st (regField w 9) (field w 0 9))
  | jsr (h : w &&& 0xF800 = 0x4800) : MatchesRow w (.jsr (field w 0 11))
  | jsrr (h : w &&& 0xF800 = 0x4000) : MatchesRow w (.jsrr (regField w 6))
  | andReg (h : w &&& 0xF020 = 0x5000) :
      MatchesRow w (.andReg (regField w 9) (regField w 6) (regField w 0))
  | andImm (h : w &&& 0xF020 = 0x5020) :
      MatchesRow w (.andImm (regField w 9) (regField w 6) (field w 0 5))
  | ldr (h : w &&& 0xF000 = 0x6000) :
      MatchesRow w (.ldr (regField w 9) (regField w 6) (field w 0 6))
  | str (h : w &&& 0xF000 = 0x7000) :
      MatchesRow w (.str (regField w 9) (regField w 6) (field w 0 6))
  | rti (h : w &&& 0xF000 = 0x8000) : MatchesRow w (.rti (field w 0 12))
  | not (h : w &&& 0xF000 = 0x9000) : MatchesRow w (.not (regField w 9) (regField w 6))
  | ldi (h : w &&& 0xF000 = 0xA000) : MatchesRow w (.ldi (regField w 9) (field w 0 9))
  | sti (h : w &&& 0xF000 = 0xB000) : MatchesRow w (.sti (regField w 9) (field w 0 9))
  | jmp (h : w &&& 0xF000 = 0xC000) : MatchesRow w (.jmp (regField w 6))
  | res (h : w &&& 0xF000 = 0xD000) : MatchesRow w (.res (field w 0 12))
  | lea (h : w &&& 0xF000 = 0xE000) : MatchesRow w (.lea (regField w 9) (field w 0 9))
  | trapGetc (h : w &&& 0xF0FF = 0xF020) : MatchesRow w .trapGetc
  | trapOut (h : w &&& 0xF0FF = 0xF021) : MatchesRow w .trapOut
  | trapPuts (h : w &&& 0xF0FF = 0xF022) : MatchesRow w .trapPuts
  | trapIn (h : w &&& 0xF0FF = 0xF023) : MatchesRow w .trapIn
  | trapPutsp (h : w &&& 0xF0FF = 0xF024) : MatchesRow w .trapPutsp
  | trapHalt (h : w &&& 0xF0FF = 0xF025) : MatchesRow w .trapHalt
  | trapOther (h : w &&& 0xF000 = 0xF000) (hv : recognisedVector (field w 0 8) = false) :
      MatchesRow w (.trapOther (field w 0 8))

section
variable {w w' v : Word} {i : Instr}

/-! ### The decoder answers the row a word matches -/

theorem decode_trap (h : w &&& 0xF000 = 0xF000) : decode w = decodeTrap (field w 0 8) := by
  simp [decode, getElem_of_masked h]

/-- A TRAP word decodes by the vector its row fixes (R121). -/
theorem decode_vector (h : w &&& 0xF0FF = v) (hop : v &&& 0xF000 = 0xF000) :
    decode w = decodeTrap (field v 0 8) := by
  rw [decode_trap ((masked_part h rfl).trans hop), field_of_masked h rfl]

/-- A vector outside R121's six decodes to the last row. -/
theorem decodeTrap_other {x : BitVec 8} (h : recognisedVector x = false) :
    decodeTrap x = .trapOther x := by
  have hx : ¬ (0x20 ≤ x.toNat ∧ x.toNat ≤ 0x25) := by simpa [recognisedVector] using h
  unfold decodeTrap
  repeat rw [if_neg (by rintro rfl; exact hx (by decide))]

/-- A word decodes to the instruction of the row it matches. -/
theorem MatchesRow.decode_eq (h : MatchesRow w i) : decode w = i := by
  cases h with
  | trapGetc h | trapOut h | trapPuts h | trapIn h | trapPutsp h | trapHalt h =>
    exact decode_vector h rfl
  | trapOther h hv => exact (decode_trap h).trans (decodeTrap_other hv)
  | _ h => simp [decode, getElem_of_masked h]

/-- A TRAP word matches the row its vector selects. -/
theorem matchesRow_decodeTrap (h : w &&& 0xF000 = 0xF000) :
    MatchesRow w (decodeTrap (field w 0 8)) := by
  unfold decodeTrap
  split_ifs with h0 h1 h2 h3 h4 h5
  · exact .trapGetc (masked_field h h0)
  · exact .trapOut (masked_field h h1)
  · exact .trapPuts (masked_field h h2)
  · exact .trapIn (masked_field h h3)
  · exact .trapPutsp (masked_field h h4)
  · exact .trapHalt (masked_field h h5)
  · refine .trapOther h ?_
    simp only [recognisedVector, decide_eq_false_iff_not]
    bv_omega

/-- Every word matches the row of the instruction it decodes to. -/
theorem matchesRow_decode (w : Word) : MatchesRow w (decode w) := by
  unfold decode
  split
  next h15 h14 h13 h12 => exact .br (opcode_of_bits h15 h14 h13 h12)
  next h15 h14 h13 h12 =>
    have hop := opcode_of_bits h15 h14 h13 h12
    split_ifs with hform
    · exact .addImm (masked_bit hop hform)
    · exact .addReg (masked_bit hop (Bool.eq_false_of_not_eq_true hform))
  next h15 h14 h13 h12 => exact .ld (opcode_of_bits h15 h14 h13 h12)
  next h15 h14 h13 h12 => exact .st (opcode_of_bits h15 h14 h13 h12)
  next h15 h14 h13 h12 =>
    have hop := opcode_of_bits h15 h14 h13 h12
    split_ifs with hform
    · exact .jsr (masked_bit hop hform)
    · exact .jsrr (masked_bit hop (Bool.eq_false_of_not_eq_true hform))
  next h15 h14 h13 h12 =>
    have hop := opcode_of_bits h15 h14 h13 h12
    split_ifs with hform
    · exact .andImm (masked_bit hop hform)
    · exact .andReg (masked_bit hop (Bool.eq_false_of_not_eq_true hform))
  next h15 h14 h13 h12 => exact .ldr (opcode_of_bits h15 h14 h13 h12)
  next h15 h14 h13 h12 => exact .str (opcode_of_bits h15 h14 h13 h12)
  next h15 h14 h13 h12 => exact .rti (opcode_of_bits h15 h14 h13 h12)
  next h15 h14 h13 h12 => exact .not (opcode_of_bits h15 h14 h13 h12)
  next h15 h14 h13 h12 => exact .ldi (opcode_of_bits h15 h14 h13 h12)
  next h15 h14 h13 h12 => exact .sti (opcode_of_bits h15 h14 h13 h12)
  next h15 h14 h13 h12 => exact .jmp (opcode_of_bits h15 h14 h13 h12)
  next h15 h14 h13 h12 => exact .res (opcode_of_bits h15 h14 h13 h12)
  next h15 h14 h13 h12 => exact .lea (opcode_of_bits h15 h14 h13 h12)
  next h15 h14 h13 h12 => exact matchesRow_decodeTrap (opcode_of_bits h15 h14 h13 h12)

/-- The row is the one `tableRow` gives for the instruction. -/
theorem MatchesRow.masked (h : MatchesRow w i) : w &&& (tableRow i).1 = (tableRow i).2 := by
  cases h <;> assumption

/-- A word of the last row has a vector that none of the six recognised rows takes (R55). -/
theorem MatchesRow.wellFormed (h : MatchesRow w i) : i.wellFormed = true := by
  cases h with
  | trapOther _ hv => simp [Instr.wellFormed, hv]
  | _ => rfl

/-- Encoding the instruction of a row the word matches gives the word's used bits back. -/
theorem MatchesRow.encode_and (h : MatchesRow w i) :
    encode i &&& ~~~ ignoredBits i = w &&& ~~~ ignoredBits i := by
  cases h with
  | trapGetc h | trapOut h | trapPuts h | trapIn h | trapPutsp h | trapHalt h => exact h.symm
  | not h =>
    -- the encoder sets the six ignored bits
    have hlow (x : Word) : (0x903F ||| x) &&& ~~~ 0x003F = (0x9000 ||| x) &&& ~~~ 0x003F := by
      rw [BitVec.and_or_distrib_right, BitVec.and_or_distrib_right]
      rfl
    simp only [encode, ignoredBits, regField, Reg.toBits_ofBits, place_field,
      BitVec.or_assoc, hlow]
    simp only [or_masked h, ← BitVec.and_or_distrib_left, BitVec.and_assoc]
    rfl
  | _ h =>
    simp only [encode, ignoredBits, regField, Reg.toBits_ofBits, ofBool_getElem, place_field,
      or_masked h, ← BitVec.and_or_distrib_left, BitVec.and_assoc]
    rfl

/-- A row of the table as an equivalence, for a row that its mask and match alone select. -/
theorem masked_iff_decode {m : Word} (hrow : w &&& m = v → MatchesRow w i)
    (htable : tableRow i = (m, v)) : w &&& m = v ↔ decode w = i := by
  refine ⟨fun h => (hrow h).decode_eq, fun h => ?_⟩
  have hmasked := (h ▸ matchesRow_decode w : MatchesRow w i).masked
  rwa [htable] at hmasked

/-! ### What a row ignores -/

/-- A word that agrees with a word of the row off the bits R56 calls ignored decodes to the same
instruction: those bits lie outside the row's mask and fields. -/
theorem MatchesRow.decode_congr (h : MatchesRow w i)
    (e : w' &&& ~~~ ignoredBits i = w &&& ~~~ ignoredBits i) : decode w' = i := by
  have hdecode := h.decode_eq
  cases h with
  | addReg h | andReg h | jsrr h | jmp h | not h =>
    dsimp only [ignoredBits] at e
    simp (disch := decide) [decode, getElem_of_masked ((masked_congr e rfl).trans h),
      regField_congr e]
  | trapGetc h | trapOut h | trapPuts h | trapIn h | trapPutsp h | trapHalt h =>
    exact decode_vector ((masked_congr e rfl).trans h) rfl
  | trapOther h hv =>
    dsimp only [ignoredBits] at e
    rw [decode_trap ((masked_congr e rfl).trans h), field_congr e rfl, decodeTrap_other hv]
  | _ =>
    -- nothing is ignored, so the words are equal
    have hall : ~~~ (0 : Word) = BitVec.allOnes 16 := rfl
    obtain rfl : w' = w := by simpa only [ignoredBits, hall, BitVec.and_allOnes] using e
    exact hdecode

/-! ### Decoding an encoding -/

/-- Decoding the encoder's word: its opcode bits select the arm of the decoder, and each field reads
back what was placed in it. -/
theorem decode_encode (hi : i.wellFormed = true) : decode (encode i) = i := by
  cases i with
  | trapGetc | trapOut | trapPuts | trapIn | trapPutsp | trapHalt => rfl
  | trapOther x =>
    have hv : recognisedVector x = false := by simpa [Instr.wellFormed] using hi
    simp [decode, encode, decodeTrap_other hv]
  | br n z p off9 =>
    rw [(MatchesRow.br (Laws.EncodedRow.br n z p off9).1).decode_eq]
    simp [encode]
  | _ => simp [decode, encode, regField]

end

end Sys2Proof

/-! ## The statements about the encoding -/

namespace Sys2Proof.Machine

/-- Settles O1 by `decode_encode`. -/
theorem decodeEncodeRoundTrip : Obligations.DecodeEncodeRoundTrip :=
  fun _ => decode_encode

/-- Settles O2: the word matches the row of the instruction it decodes to. -/
theorem encodeDecodeKeepsUsedBits : Obligations.EncodeDecodeKeepsUsedBits :=
  fun w => ⟨(matchesRow_decode w).wellFormed, (matchesRow_decode w).encode_and⟩

/-- Settles O3: flipping ignored bits keeps the row and its fields, and RTI and RES only abort. -/
theorem ignoredBitsHaveNoEffect : Obligations.IgnoredBitsHaveNoEffect := by
  refine ⟨fun w m => ?_, fun _ _ _ => ?_, fun _ _ _ => ?_⟩
  · exact (matchesRow_decode w).decode_congr (xor_and_compl w m _)
  · exact ⟨_, _, rfl, rfl, rfl, ⟨_, rfl⟩, ⟨_, rfl⟩⟩
  · exact ⟨_, _, rfl, rfl, rfl, ⟨_, rfl⟩, ⟨_, rfl⟩⟩

/-- Settles O4: each row by `masked_iff_decode`, the last one with its vector. -/
theorem rowsSelectTheInstruction : Obligations.RowsSelectTheInstruction := by
  intro w
  refine ⟨masked_iff_decode .br rfl, masked_iff_decode .addReg rfl,
    masked_iff_decode .addImm rfl, masked_iff_decode .ld rfl, masked_iff_decode .st rfl,
    masked_iff_decode .jsr rfl, masked_iff_decode .jsrr rfl, masked_iff_decode .andReg rfl,
    masked_iff_decode .andImm rfl, masked_iff_decode .ldr rfl, masked_iff_decode .str rfl,
    masked_iff_decode .rti rfl, masked_iff_decode .not rfl, masked_iff_decode .ldi rfl,
    masked_iff_decode .sti rfl, masked_iff_decode .jmp rfl, masked_iff_decode .res rfl,
    masked_iff_decode .lea rfl, masked_iff_decode .trapGetc rfl, masked_iff_decode .trapOut rfl,
    masked_iff_decode .trapPuts rfl, masked_iff_decode .trapIn rfl,
    masked_iff_decode .trapPutsp rfl, masked_iff_decode .trapHalt rfl, ?_⟩
  refine ⟨fun ⟨h, hv⟩ => (MatchesRow.trapOther h hv).decode_eq, fun h => ?_⟩
  have hrow : MatchesRow w (.trapOther (field w 0 8)) := h ▸ matchesRow_decode w
  exact ⟨hrow.masked, by simpa [Instr.wellFormed] using hrow.wellFormed⟩

/-- Executed while RUNNING, an instruction leaves an ABORTED state exactly when it is one of the
three that abort. -/
theorem exec_fails_iff_aborts (i : Instr) {s : State} (hrun : s.run = .running) :
    (∃ t, exec i s = .next t ∧ t.failed) ↔ aborts i = true := by
  constructor
  · rintro ⟨t, hexec, c, hc⟩
    have hafter : runAfter i s = .aborted c := (exec_answers i s t hexec).run.symm.trans hc
    obtain ⟨-, hhalt⟩ | ⟨-, habort, -⟩ | ⟨-, -, hkeep⟩ := runAfter_cases i s
    · cases hhalt.symm.trans hafter
    · exact habort
    · cases hrun.symm.trans (hkeep.symm.trans hafter)
  · intro h
    cases i with
    | rti | res | trapOther => exact ⟨_, rfl, _, rfl⟩
    | _ => cases h

/-- Settles O5 by `exec_fails_iff_aborts` and `aborts_decode`. -/
theorem illegalWordsExactlyAbort : Obligations.IllegalWordsExactlyAbort :=
  fun w _ hrun => (exec_fails_iff_aborts (decode w) hrun).trans (aborts_decode w)

/-- The words below 2^9 are the branches with the empty mask (R58). -/
theorem decode_of_le {w : Word} (h : w.toNat ≤ 0x01FF) :
    decode w = .br false false false (field w 0 9) := by
  have hhigh (j : Nat) (hj : j < 16) (hlow : 9 ≤ j) : w[j] = false := by
    have hpow : 2 ^ 9 ≤ 2 ^ j := Nat.pow_le_pow_right (by decide) hlow
    rw [BitVec.getElem_eq_testBit_toNat, Nat.testBit_lt_two_pow (by omega)]
  simp [decode, hhigh]

/-- The empty mask selects no flag (R90). -/
theorem branchTaken_empty (c : Cond) : branchTaken false false false c = false := by
  cases c <;> rfl

/-- Settles O6: the word is a branch with the empty mask, which is never taken. -/
theorem emptyMaskBranchIsNoOperation : Obligations.EmptyMaskBranchIsNoOperation := by
  intro w s h
  rw [decode_of_le h]
  simp [exec, execBr, branchTaken_empty]

/-- Settles O7 by evaluating the decoder. -/
theorem sampleWordsDecode : Obligations.SampleWordsDecode := by
  unfold Obligations.SampleWordsDecode
  decide

end Sys2Proof.Machine

/-! ## The instruction cycle

The fetched word, the held step, and the one reason why a step has no next state. -/

namespace Sys2Proof.Machine

section
variable {i : Instr} {s : State}

/-- A poll with nothing waiting leaves the status word clear. -/
theorem kbdPoll_read_status_nil (h : s.inq = []) :
    (kbdPoll s).mem.read s.cfg.kbsrAddr = 0x0000 := by
  simp [kbdPoll_nil s h]

/-- A poll with a character waiting leaves the status word 0x8000, as the data word is
another (D3). -/
theorem kbdPoll_read_status_ready (hcfg : s.cfg.wf = true) (h : s.inq ≠ []) :
    (kbdPoll s).mem.read s.cfg.kbsrAddr = 0x8000 := by
  have hdistinct : s.cfg.kbsrAddr ≠ s.cfg.kbdrAddr := by simpa [Config.wf] using hcfg
  obtain ⟨c, rest, hinq⟩ := List.exists_cons_of_ne_nil h
  simp [kbdPoll_cons s hinq, hdistinct]

/-- A fetch at `KBSR_ADDR` polls and then reads the status word (D14). -/
theorem fetch_poll (h : s.pc = s.cfg.kbsrAddr) :
    fetch s = ((kbdPoll s).mem.read s.cfg.kbsrAddr, (kbdPoll s).setPc (s.pc + 1)) := by
  rw [fetch_eq, memRead_fst, memRead_poll s h, h]

/-- With no character waiting a fetch at `KBSR_ADDR` reads 0x0000, a branch: so the word of GETC
or IN was fetched elsewhere. -/
theorem pc_ne_kbsrAddr_of_held (h : held (decode (fetch s).1) s) : s.pc ≠ s.cfg.kbsrAddr := by
  obtain ⟨hinput, hinq⟩ := h
  intro hpc
  rw [fetch_poll hpc, kbdPoll_read_status_nil hinq] at hinput
  have hbranch : ¬ (decode 0x0000 = .trapGetc ∨ decode 0x0000 = .trapIn) := by decide
  exact hbranch hinput

/-- A held GETC or IN puts `pc` back and does nothing else. -/
theorem exec_held (h : held i s) : exec i s = .next (holdStep s) := by
  obtain ⟨rfl | rfl, hinq⟩ := h
  · exact execTrapGetc_held s hinq
  · exact execTrapIn_held s hinq

/-- Holding undoes the increment of `pc` that the fetch made. -/
theorem holdStep_setPc_succ (s : State) : holdStep (s.setPc (s.pc + 1)) = s := by
  rw [holdStep_eq, State.setPc_pc, BitVec.add_sub_cancel]
  rfl

/-- GETC and IN with a character waiting take it into R0 (R123, R127, by D8 unchanged). -/
theorem exec_input_ready {c : Byte} {rest : List Byte} (hinput : i = .trapGetc ∨ i = .trapIn)
    (hinq : s.inq = c :: rest) :
    ∃ t, exec i s = .next t ∧ t.inq = rest ∧ (t.reg .r0).toNat = c.toNat := by
  have hchar : (zext16 c).toNat = c.toNat := BitVec.toNat_setWidth_of_le (by decide)
  obtain rfl | rfl := hinput
  · exact ⟨_, execTrapGetc_ready s hinq, by simp, by simp [hchar]⟩
  · exact ⟨_, execTrapIn_ready s hinq, by simp, by simp [hchar]⟩

/-- GETC and IN complete, held or not. -/
theorem exec_input_next (hinput : i = .trapGetc ∨ i = .trapIn) (s : State) :
    ∃ t, exec i s = .next t := by
  cases hinq : s.inq with
  | nil => exact ⟨_, exec_held ⟨hinput, hinq⟩⟩
  | cons c rest =>
    obtain ⟨t, ht, -⟩ := exec_input_ready hinput hinq
    exact ⟨t, ht⟩

/-- There is no string exactly when no word of memory is zero. -/
theorem stringAt_eq_none_iff (chars : Word → List Byte) (a : Word) :
    stringAt chars s a = none ↔ ∀ b, s.mem.read b ≠ 0 := by
  refine ⟨fun hnone b hb => ?_, fun h => stringAt_eq_none s chars h a⟩
  obtain ⟨k, hk, hzero, hbefore⟩ := first_zero_word s.mem ⟨b, hb⟩ a
  cases hnone.symm.trans (stringAt_eq_some s chars hk hbefore hzero)

/-- The routine that PUTS and PUTSP share: the string at R0, its words written by `chars`. -/
def stringRoutine (chars : Word → List Byte) (s : State) : Host.Outcome State Fault Refusal :=
  match stringAt chars (trapLink s) ((trapLink s).reg .r0) with
  | some cs => .next (conOut cs (trapLink s))
  | none => .refused .unterminatedString

theorem exec_trapPuts (s : State) : exec .trapPuts s = stringRoutine charsOfPuts s := rfl

theorem exec_trapPutsp (s : State) : exec .trapPutsp s = stringRoutine charsOfPutsp s := rfl

/-- A string routine completes unless no word of memory is zero (R126, R128). -/
theorem stringRoutine_next_iff (chars : Word → List Byte) (s : State) :
    (∃ t, stringRoutine chars s = .next t) ↔ ¬ ∀ a, s.mem.read a ≠ 0 := by
  have hnone := stringAt_eq_none_iff (s := trapLink s) chars ((trapLink s).reg .r0)
  rw [trapLink_eq, State.setReg_mem] at hnone
  rw [← hnone, stringRoutine, trapLink_eq]
  cases stringAt chars (s.setReg .r7 s.pc) ((s.setReg .r7 s.pc).reg .r0) <;> simp

/-- Every instruction but PUTS and PUTSP completes in every state. -/
theorem exec_next_of_not_string (hputs : i ≠ .trapPuts) (hputsp : i ≠ .trapPutsp) (s : State) :
    ∃ t, exec i s = .next t := by
  cases i with
  | trapPuts => exact absurd rfl hputs
  | trapPutsp => exact absurd rfl hputsp
  | trapGetc => exact exec_input_next (.inl rfl) s
  | trapIn => exact exec_input_next (.inr rfl) s
  | _ => exact ⟨_, rfl⟩

/-- An instruction completes unless it is PUTS or PUTSP and no word of memory is zero. -/
theorem exec_next_iff (i : Instr) (s : State) :
    (∃ t, exec i s = .next t) ↔
      ¬ ((i = .trapPuts ∨ i = .trapPutsp) ∧ ∀ a, s.mem.read a ≠ 0) := by
  by_cases hstring : i = .trapPuts ∨ i = .trapPutsp
  · rw [and_iff_right hstring]
    obtain rfl | rfl := hstring
    · exact exec_trapPuts s ▸ stringRoutine_next_iff charsOfPuts s
    · exact exec_trapPutsp s ▸ stringRoutine_next_iff charsOfPutsp s
  · obtain ⟨hputs, hputsp⟩ := not_or.mp hstring
    exact iff_of_true (exec_next_of_not_string hputs hputsp s) fun h => hstring h.1

end

/-- Settles O48: the step is the execution of the fetched word, and `exec_next_iff` says when that
completes. -/
theorem stepCompletesUnlessStringIsEndless : Obligations.StepCompletesUnlessStringIsEndless := by
  intro s hrun
  rw [step_running s hrun]
  exact exec_next_iff _ _

/-- Settles O50: the fetch has only advanced `pc`, which the hold puts back; with input appended the
same word is fetched and `exec_input_ready` applies. -/
theorem heldStepWaitsForInput : Obligations.HeldStepWaitsForInput := by
  intro s hrun hheld
  have hpc := pc_ne_kbsrAddr_of_held hheld
  rw [fetch_plain s hpc] at hheld
  refine ⟨?_, fun c cs => ?_⟩
  · have hafter : held (decode (s.mem.read s.pc)) (s.setPc (s.pc + 1)) := hheld
    rw [step_plain hrun hpc, exec_held hafter, holdStep_setPc_succ]
  · obtain ⟨hinput, hinq⟩ := hheld
    have hstep : step (supplyInput (c :: cs) s) =
        exec (decode (s.mem.read s.pc)) ((supplyInput (c :: cs) s).setPc (s.pc + 1)) :=
      step_plain (s := supplyInput (c :: cs) s) hrun hpc
    rw [hstep]
    exact exec_input_ready hinput (by simp [supplyInput, hinq])

/-- Settles O41: the fetch in general, away from `KBSR_ADDR`, and at it by the status word that the
poll leaves. -/
theorem stepExecutesTheFetchedWord : Obligations.StepExecutesTheFetchedWord := by
  refine ⟨fun s hrun => ?_, fun s hrun hpc => step_plain hrun hpc, fun s hrun hcfg hpc => ?_⟩
  · rw [step_running s hrun, fetch_eq]
    rfl
  · rw [step_running s hrun, fetch_poll hpc]
    by_cases hinq : s.inq = []
    · rw [if_pos hinq, kbdPoll_read_status_nil hinq]
      rfl
    · rw [if_neg hinq, kbdPoll_read_status_ready hcfg hinq]
      rfl

end Sys2Proof.Machine

/-! ## The operate instructions

Each answers the state with its result written to the destination; `resultFrame_writeDest` gives the
flags and the frame, so that only the value is left. -/

namespace Sys2Proof.Machine

/-- Words that a row of R55 selects decode to the instruction of the row. -/
theorem decodesTo_of_matchesRow {m v : Word} {f : Word → Instr}
    (hrow : ∀ w, w &&& m = v → MatchesRow w (f w)) : DecodesTo m v f :=
  fun w h => (hrow w h).decode_eq

theorem writeDest_reg_same (dr : Reg) (v : Word) (s : State) : (writeDest dr v s).reg dr = v := by
  simp

/-- Writing a destination sets the flags of the result and leaves everything else (R18). -/
theorem resultFrame_writeDest (dr : Reg) (v : Word) (s : State) :
    ResultFrame dr s (writeDest dr v s) := by
  refine ⟨?flags, fun r hr => ?regs, rfl, fun _ => rfl, ⟨rfl, rfl⟩, rfl, rfl⟩
  case flags => simpa using flagOf_classify v
  case regs => simp [show r ≠ dr by simpa using hr]

/-- Adding a sign-extended field adds its signed value modulo 2^16 (R202, R204). -/
theorem addrSum_sext {n : Nat} (base : Word) (off : BitVec n) :
    AddrSum (base + sext off) base off.toInt :=
  (addrSum_iff ..).mpr rfl

/-- Sign extension repeats the field's top bit above it (R204). -/
theorem getLsbD_sext {n k : Nat} (v : BitVec n) (hk : k < 16) :
    (sext v).getLsbD k = v.getLsbD (min k (n - 1)) := by
  rw [sext, BitVec.getLsbD_signExtend, decide_eq_true hk, Bool.true_and]
  split
  next hlow => rw [Nat.min_eq_left (by omega)]
  next hhigh => rw [Nat.min_eq_right (by omega), BitVec.msb_eq_getLsbD_last]

/-- Settles O15: the result is the sum of the old values. -/
theorem addRegisterResult : Obligations.AddRegisterResult := by
  refine ⟨decodesTo_of_matchesRow fun _ => .addReg, fun dr sr1 sr2 s =>
    ⟨_, rfl, ?_, resultFrame_writeDest ..⟩⟩
  rw [writeDest_reg_same]
  exact BitVec.toNat_add ..

/-- Settles O16: the sum by `addrSum_sext`. -/
theorem addImmediateResult : Obligations.AddImmediateResult := by
  refine ⟨decodesTo_of_matchesRow fun _ => .addImm, fun dr sr1 imm5 s =>
    ⟨_, rfl, ?_, resultFrame_writeDest ..⟩⟩
  rw [writeDest_reg_same]
  exact addrSum_sext ..

/-- Settles O17: the result is the AND of the old values. -/
theorem andRegisterResult : Obligations.AndRegisterResult := by
  refine ⟨decodesTo_of_matchesRow fun _ => .andReg, fun dr sr1 sr2 s =>
    ⟨_, rfl, fun k => ?_, resultFrame_writeDest ..⟩⟩
  rw [writeDest_reg_same]
  exact BitVec.getLsbD_and

/-- Settles O18: the mask's bits by `getLsbD_sext`; from bit 16 up both sides are false. -/
theorem andImmediateResult : Obligations.AndImmediateResult := by
  refine ⟨decodesTo_of_matchesRow fun _ => .andImm, fun dr sr1 imm5 s =>
    ⟨_, rfl, fun k => ?_, resultFrame_writeDest ..⟩⟩
  rw [writeDest_reg_same, BitVec.getLsbD_and]
  by_cases hk : k < 16
  · rw [getLsbD_sext imm5 hk]
  · rw [BitVec.getLsbD_of_ge (s.reg sr1) k (by omega), Bool.false_and, Bool.false_and]

/-- Settles O19: the complement of a word is its distance from 0xFFFF. -/
theorem notResult : Obligations.NotResult := by
  refine ⟨decodesTo_of_matchesRow fun _ => .not, fun dr sr s =>
    ⟨_, rfl, ?_, resultFrame_writeDest ..⟩⟩
  rw [writeDest_reg_same]
  exact BitVec.toNat_not

end Sys2Proof.Machine

/-! ## Control transfer

A control transfer is a jump, which moves `pc`, or a call, which links R7 first; each leaves the rest
(`transferFrame_jump`, `transferFrame_call`), so that only the target is left. -/

namespace Sys2Proof.Machine

/-- What a control transfer that may write only `regs` leaves besides `pc`. -/
def TransferFrame (regs : List Reg) (s t : State) : Prop :=
  KeepsRegs regs s t ∧ t.cond = s.cond ∧ KeepsMem s t ∧ KeepsConsole s t ∧ KeepsRun s t

/-- A jump moves `pc` alone. -/
theorem transferFrame_jump (target : Word) (s : State) :
    TransferFrame [] s (s.setPc target) :=
  ⟨fun _ _ => rfl, rfl, fun _ => rfl, ⟨rfl, rfl⟩, rfl, rfl⟩

/-- A call writes R7 and moves `pc`, and nothing else. -/
theorem transferFrame_call (target link : Word) (s : State) :
    TransferFrame [.r7] s ((s.setReg .r7 link).setPc target) := by
  refine ⟨fun r hr => ?regs, rfl, fun _ => rfl, ⟨rfl, rfl⟩, rfl, rfl⟩
  case regs => simp [show r ≠ .r7 by simpa using hr]

/-- R90's test: some bit of the mask pairs with the flag that holds (R16). -/
theorem branchTaken_iff (n z p : Bool) (c : Cond) :
    branchTaken n z p c = true ↔
      (n = true ∧ c = .n) ∨ (z = true ∧ c = .z) ∨ (p = true ∧ c = .p) := by
  revert n z p
  cases c <;> decide

/-- A branch is a jump, to the next word when it is not taken. -/
theorem exec_br (n z p : Bool) (off9 : BitVec 9) (s : State) :
    exec (.br n z p off9) s =
      .next (s.setPc (if branchTaken n z p s.cond then pcRelative9 off9 s else s.pc)) := by
  dsimp only [exec, execBr]
  split <;> rfl

/-- JSRR jumps to its base, or to the link where that has overwritten the base (R94, D7). -/
theorem exec_jsrr (base : Reg) (s : State) :
    exec (.jsrr base) s =
      .next ((s.setReg .r7 s.pc).setPc (if base = .r7 then s.pc else s.reg base)) := by
  simp [exec, execJsrr]

/-- Settles O27: the test by `branchTaken_iff`, the taken target by `addrSum_sext`. -/
theorem branchTarget : Obligations.BranchTarget := by
  refine ⟨decodesTo_of_matchesRow fun _ => .br, fun n z p off9 s =>
    ⟨_, exec_br .., fun htaken => ?taken, fun hstay => ?notTaken, transferFrame_jump ..⟩⟩
  case taken =>
    rw [State.setPc_pc, if_pos ((branchTaken_iff ..).mpr htaken)]
    exact addrSum_sext ..
  case notTaken => exact if_neg (mt (branchTaken_iff ..).mp hstay)

/-- Settles O28: JMP is a jump to its base. -/
theorem jumpTarget : Obligations.JumpTarget :=
  ⟨decodesTo_of_matchesRow fun _ => .jmp, fun _ _ => ⟨_, rfl, rfl, transferFrame_jump ..⟩⟩

/-- Settles O29: JSR is a call, its target by `addrSum_sext`. -/
theorem subroutineCallLinks : Obligations.SubroutineCallLinks :=
  ⟨decodesTo_of_matchesRow fun _ => .jsr, fun _ _ =>
    ⟨_, rfl, rfl, addrSum_sext .., transferFrame_call ..⟩⟩

/-- Settles O30: JSRR is a call, whose target `exec_jsrr` tells apart by the base. -/
theorem registerCallLinksFirst : Obligations.RegisterCallLinksFirst :=
  ⟨decodesTo_of_matchesRow fun _ => .jsrr, fun base s =>
    ⟨_, exec_jsrr base s, rfl, fun hbase => if_neg hbase, fun hr7 => if_pos hr7,
      transferFrame_call ..⟩⟩

end Sys2Proof.Machine

/-! ## Data movement

A load writes the word of a device-aware read to its destination; a store writes one word. LDI and
STI do so in the state their pointer read leaves, which keeps all but memory and the input. -/

namespace Sys2Proof.Machine

theorem Reads.out {s u : State} (h : Reads s u) : u.out = s.out :=
  h.keeps fun a s => memRead_out s a

/-- LDI and STI read their pointer at the PC-relative address. -/
theorem readAt_indirect9 (off9 : BitVec 9) (s : State) :
    ReadAt (pcRelative9 off9 s) (indirect9 off9 s).1 s (indirect9 off9 s).2 :=
  readAt_memRead ..

theorem reads_indirect9 (off9 : BitVec 9) (s : State) : Reads s (indirect9 off9 s).2 :=
  .read _ .refl

/-- A load leaves the word read in its destination, and memory and the waiting input as the read
left them. -/
theorem readAt_loadInto (dr : Reg) (ea : Word) (s : State) :
    ReadAt ea ((loadInto dr ea s).reg dr) s (loadInto dr ea s) := by
  rw [loadInto, writeDest_reg_same]
  exact readAt_memRead ea s

/-- What a load leaves besides the word read, memory and the waiting input. -/
def LoadFrame (dr : Reg) (s t : State) : Prop :=
  FlagOf (t.reg dr) t.cond ∧ KeepsRegs [dr] s t ∧ t.pc = s.pc ∧ t.out = s.out ∧ KeepsRun s t

/-- A load, from the state that earlier reads leave, keeps what those reads and its own keep. -/
theorem loadFrame_loadInto (dr : Reg) (ea : Word) {s u : State} (h : Reads s u) :
    LoadFrame dr s (loadInto dr ea u) := by
  have reads : Reads s (memRead ea u).2 := .read ea h
  obtain ⟨hflag, hregs, -⟩ := resultFrame_writeDest dr (memRead ea u).1 (memRead ea u).2
  exact ⟨hflag, fun r hr => (hregs r hr).trans (reads.reg r), reads.pc, reads.out, reads.run,
    reads.cfg⟩

/-- What a store leaves besides memory. -/
def StoreFrame (s t : State) : Prop :=
  KeepsRegs [] s t ∧ t.cond = s.cond ∧ t.pc = s.pc ∧ KeepsConsole s t ∧ KeepsRun s t

/-- A store changes memory alone (R32); the stored word is `Memory.read_write`. -/
theorem storeFrame_memWrite (a v : Word) (s : State) : StoreFrame s (memWrite a v s) :=
  ⟨fun _ _ => rfl, rfl, rfl, ⟨rfl, rfl⟩, rfl, rfl⟩

/-- STI stores the source's old value: the pointer read changes no register. -/
theorem exec_sti (sr : Reg) (off9 : BitVec 9) (s : State) :
    exec (.sti sr off9) s =
      .next (memWrite (indirect9 off9 s).1 (s.reg sr) (indirect9 off9 s).2) := by
  rw [← (reads_indirect9 off9 s).reg sr]
  rfl

/-- Settles O9: the sums by `addrSum_sext`, the indirect address by `readAt_indirect9`. -/
theorem effectiveAddressesWrap : Obligations.EffectiveAddressesWrap :=
  ⟨fun _ _ => addrSum_sext .., fun _ _ => addrSum_sext .., fun _ _ _ => addrSum_sext ..,
    readAt_indirect9⟩

/-- Settles O20: LD is a load from its PC-relative address. -/
theorem loadResult : Obligations.LoadResult :=
  ⟨decodesTo_of_matchesRow fun _ => .ld, fun _ _ _ =>
    ⟨addrSum_sext .., _, rfl, readAt_loadInto .., loadFrame_loadInto _ _ .refl⟩⟩

/-- Settles O21: LDI is a load from its pointer, in the state the pointer read leaves. -/
theorem loadIndirectResult : Obligations.LoadIndirectResult :=
  ⟨decodesTo_of_matchesRow fun _ => .ldi, fun _ off9 s =>
    have reads := reads_indirect9 off9 s
    ⟨addrSum_sext .., _, _, _, rfl, readAt_indirect9 off9 s, reads.cfg, readAt_loadInto ..,
      loadFrame_loadInto _ _ reads⟩⟩

/-- Settles O22: LDR is a load from its base plus its offset. -/
theorem loadBaseOffsetResult : Obligations.LoadBaseOffsetResult :=
  ⟨decodesTo_of_matchesRow fun _ => .ldr, fun _ _ _ _ =>
    ⟨addrSum_sext .., _, rfl, readAt_loadInto .., loadFrame_loadInto _ _ .refl⟩⟩

/-- Settles O23: LEA writes its address to the destination, as an operate instruction its result. -/
theorem loadEffectiveAddressResult : Obligations.LoadEffectiveAddressResult := by
  refine ⟨decodesTo_of_matchesRow fun _ => .lea, fun dr off9 s =>
    ⟨_, rfl, ?_, resultFrame_writeDest ..⟩⟩
  rw [writeDest_reg_same]
  exact addrSum_sext ..

/-- Settles O24: ST is a store to its PC-relative address. -/
theorem storeResult : Obligations.StoreResult :=
  ⟨decodesTo_of_matchesRow fun _ => .st, fun _ _ _ =>
    ⟨addrSum_sext .., _, rfl, Memory.read_write _ _ _, storeFrame_memWrite ..⟩⟩

/-- Settles O25: STI is a store to its pointer, in the state the pointer read leaves. -/
theorem storeIndirectResult : Obligations.StoreIndirectResult :=
  ⟨decodesTo_of_matchesRow fun _ => .sti, fun sr off9 s =>
    have reads := reads_indirect9 off9 s
    ⟨addrSum_sext .., readAt_indirect9 off9 s, _, exec_sti sr off9 s, Memory.read_write _ _ _,
      rfl, fun r _ => reads.reg r, reads.cond, reads.pc, reads.out, reads.run, reads.cfg⟩⟩

/-- Settles O26: STR is a store to its base plus its offset. -/
theorem storeBaseOffsetResult : Obligations.StoreBaseOffsetResult :=
  ⟨decodesTo_of_matchesRow fun _ => .str, fun _ _ _ _ =>
    ⟨addrSum_sext .., _, rfl, Memory.read_write _ _ _, storeFrame_memWrite ..⟩⟩

end Sys2Proof.Machine

/-! ## The trap routines and the fatal decode error

`exec_answers` gives the registers each of them keeps; memory and the other fields stand in the state
that `exec` names. So only the characters read or written and the recorded cause are left. -/

namespace Sys2Proof.Machine

/-- Executing an instruction keeps every register but those it may write (R12, R121). -/
theorem exec_keepsRegs {i : Instr} {s t : State} (h : exec i s = .next t) :
    KeepsRegs (writtenRegs i) s t :=
  (exec_answers i s t h).keepsRegs

/-! ### Characters -/

theorem toNat_zext16 (c : Byte) : (zext16 c).toNat = c.toNat :=
  BitVec.toNat_setWidth_of_le (by decide)

/-- The flag of a character is never N: zero extension leaves bit 15 clear (D8). -/
theorem classify_zext16_ne_n (c : Byte) : classify (zext16 c) ≠ .n := by
  obtain ⟨-, hn, -⟩ := flagOf_classify (zext16 c)
  have hlt := c.isLt
  rw [Ne, hn, toNat_zext16]
  omega

/-- The low byte of a word as a number. -/
theorem lowByte_eq_ofNat (w : Word) : w.extractLsb' 0 8 = BitVec.ofNat 8 w.toNat := rfl

/-- The high byte of a word as a number. -/
theorem highByte_eq_ofNat (w : Word) : w.extractLsb' 8 8 = BitVec.ofNat 8 (w.toNat / 256) :=
  congrArg (BitVec.ofNat 8) (Nat.shiftRight_eq_div_pow w.toNat 8)

/-- The high byte is zero in the words below 256. -/
theorem highByte_eq_zero_iff (w : Word) : w.extractLsb' 8 8 = 0 ↔ w.toNat < 256 := by
  have hlt := w.isLt
  rw [highByte_eq_ofNat]
  bv_omega

/-- R128's characters of one word, by the word as a number. -/
theorem charsOfPutsp_eq (w : Word) :
    charsOfPutsp w =
      if w.toNat < 256 then [BitVec.ofNat 8 w.toNat]
      else [BitVec.ofNat 8 w.toNat, BitVec.ofNat 8 (w.toNat / 256)] := by
  simp only [charsOfPutsp, highByte_eq_zero_iff]
  rw [lowByte_eq_ofNat, highByte_eq_ofNat]

/-! ### The string routines -/

/-- With a zero word in memory a string routine links and writes the characters of the words before
the first one at or after R0 (R126, R128, D12). -/
theorem stringRoutine_eq_next (chars : Word → List Byte) {s : State} (h : ∃ a, s.mem.read a = 0) :
    ∃ k, k < 65536 ∧ s.mem.read (s.reg .r0 + BitVec.ofNat 16 k) = 0 ∧
      (∀ i < k, s.mem.read (s.reg .r0 + BitVec.ofNat 16 i) ≠ 0) ∧
      stringRoutine chars s = .next (conOut
        ((List.range k).flatMap fun i => chars (s.mem.read (s.reg .r0 + BitVec.ofNat 16 i)))
        (trapLink s)) := by
  obtain ⟨k, hk, hzero, hbefore⟩ := first_zero_word s.mem h (s.reg .r0)
  refine ⟨k, hk, hzero, hbefore, ?_⟩
  have hstring := stringAt_eq_some (trapLink s) chars hk hbefore hzero
  have hr0 : (trapLink s).reg .r0 = s.reg .r0 := rfl
  rw [stringRoutine, hr0, hstring]
  rfl

/-- Without a zero word in memory a string routine is refused (U10). -/
theorem stringRoutine_eq_refused (chars : Word → List Byte) {s : State}
    (h : ∀ a, s.mem.read a ≠ 0) : stringRoutine chars s = .refused .unterminatedString := by
  rw [stringRoutine, stringAt_eq_none (trapLink s) chars h]

/-- What a routine that only writes characters leaves besides the link and the output. -/
def OutputFrame (s t : State) : Prop :=
  KeepsRegs [.r7] s t ∧ t.cond = s.cond ∧ t.pc = s.pc ∧ KeepsMem s t ∧ t.inq = s.inq ∧ KeepsRun s t

theorem outputFrame_conOut (cs : List Byte) (s : State) :
    OutputFrame s (conOut cs (trapLink s)) := by
  refine ⟨fun r hr => ?regs, rfl, rfl, fun _ => rfl, rfl, rfl, rfl⟩
  case regs => simp [show r ≠ .r7 by simpa using hr]

/-! ### The abort by RTI and RES -/

/-- What the abort by a reserved opcode leaves: the cause recorded, and all else as it was. -/
theorem raise_frame (cause : AbortCause) (s : State) :
    (raise cause s).run = .aborted cause ∧ KeepsRegs [] s (raise cause s) ∧
      (raise cause s).cond = s.cond ∧ (raise cause s).pc = s.pc ∧ KeepsMem s (raise cause s) ∧
      KeepsConsole s (raise cause s) ∧ (raise cause s).cfg = s.cfg :=
  ⟨rfl, fun _ _ => rfl, rfl, rfl, fun _ => rfl, ⟨rfl, rfl⟩, rfl⟩

/-- An opcode joined with the low twelve bits is their sum. -/
theorem or_place_low12 (op : Nat) (low12 : BitVec 12) :
    BitVec.ofNat 16 (2 ^ 12 * op) ||| place low12 0 =
      BitVec.ofNat 16 (2 ^ 12 * op + low12.toNat) := by
  have hplace : place low12 0 = BitVec.ofNat 16 low12.toNat := by simp [place]
  rw [hplace, Nat.two_pow_add_eq_or_of_lt low12.isLt, BitVec.ofNat_or]

theorem encode_rti (low12 : BitVec 12) :
    encode (.rti low12) = BitVec.ofNat 16 (0x8000 + low12.toNat) :=
  or_place_low12 8 low12

theorem encode_res (low12 : BitVec 12) :
    encode (.res low12) = BitVec.ofNat 16 (0xD000 + low12.toNat) :=
  or_place_low12 13 low12

/-! ### The statements -/

/-- Settles O31 by the two cases of GETC. -/
theorem getcReadsOneCharacter : Obligations.GetcReadsOneCharacter :=
  ⟨decodesTo_of_matchesRow fun _ => .trapGetc,
    fun s c _ hinq =>
      have hexec := execTrapGetc_ready s hinq
      ⟨_, hexec, rfl, toNat_zext16 c, rfl, flagOf_classify (zext16 c), classify_zext16_ne_n c,
        exec_keepsRegs (i := .trapGetc) hexec, rfl, fun _ => rfl, rfl, rfl, rfl⟩,
    execTrapGetc_held⟩

/-- Settles O32: OUT writes the low byte of R0, which the link leaves alone. -/
theorem outWritesLowByte : Obligations.OutWritesLowByte :=
  ⟨decodesTo_of_matchesRow fun _ => .trapOut, fun s =>
    ⟨_, rfl, rfl, congrArg (s.out ++ [·]) (lowByte_eq_ofNat (s.reg .r0)), outputFrame_conOut ..⟩⟩

/-- Settles O33: the string routine with one character for each word. -/
theorem putsWritesUpToTheZeroWord : Obligations.PutsWritesUpToTheZeroWord := by
  refine ⟨decodesTo_of_matchesRow fun _ => .trapPuts, fun s h => ?zero, fun s h t ht => ?endless⟩
  case zero =>
    obtain ⟨k, hk, hzero, hbefore, hexec⟩ := stringRoutine_eq_next charsOfPuts h
    refine ⟨_, k, hk, hzero, hbefore, hexec, rfl, ?out, outputFrame_conOut ..⟩
    case out => exact congrArg (s.out ++ ·) (List.flatMap_pure_eq_map ..)
  case endless => cases ht.symm.trans (stringRoutine_eq_refused charsOfPuts h)

/-- Settles O34 by the two cases of IN. -/
theorem inPromptsReadsAndEchoes : Obligations.InPromptsReadsAndEchoes :=
  ⟨decodesTo_of_matchesRow fun _ => .trapIn,
    fun s c _ hinq =>
      have hexec := execTrapIn_ready s hinq
      ⟨_, hexec, rfl, toNat_zext16 c, rfl, rfl, flagOf_classify (zext16 c),
        classify_zext16_ne_n c, exec_keepsRegs (i := .trapIn) hexec, rfl, fun _ => rfl, rfl, rfl⟩,
    execTrapIn_held⟩

/-- Settles O35: the string routine with `charsOfPutsp_eq` for each word. -/
theorem putspWritesPackedCharacters : Obligations.PutspWritesPackedCharacters := by
  refine ⟨decodesTo_of_matchesRow fun _ => .trapPutsp, fun s h => ?zero, fun s h t ht => ?endless⟩
  case zero =>
    obtain ⟨k, hk, hzero, hbefore, hexec⟩ := stringRoutine_eq_next charsOfPutsp h
    refine ⟨_, k, hk, hzero, hbefore, hexec, rfl, ?out, outputFrame_conOut ..⟩
    case out => simp only [conOut_eq, State.setOut_out, trapLink_eq, State.setReg_out,
        charsOfPutsp_eq]
  case endless => cases ht.symm.trans (stringRoutine_eq_refused charsOfPutsp h)

/-- Settles O36 by `stringRoutine_eq_refused`. -/
theorem unterminatedStringIsRefused : Obligations.UnterminatedStringIsRefused :=
  fun _ h => ⟨stringRoutine_eq_refused charsOfPuts h, stringRoutine_eq_refused charsOfPutsp h⟩

/-- Settles O37: HALT links, announces and moves the run state. -/
theorem haltAnnouncesAndHalts : Obligations.HaltAnnouncesAndHalts :=
  ⟨decodesTo_of_matchesRow fun _ => .trapHalt, fun _ =>
    ⟨_, rfl, rfl, rfl, rfl, exec_keepsRegs (i := .trapHalt) rfl, rfl, rfl, fun _ => rfl, rfl, rfl⟩⟩

/-- Settles O38: the last row's words, and the link before the abort. -/
theorem badTrapVectorAborts : Obligations.BadTrapVectorAborts :=
  ⟨fun _ h hv => (MatchesRow.trapOther h hv).decode_eq, fun vect _ =>
    ⟨_, rfl, rfl, rfl, exec_keepsRegs (i := .trapOther vect) rfl, rfl, rfl, fun _ => rfl,
      ⟨rfl, rfl⟩, rfl⟩⟩

/-- Settles O39: RTI only raises, with the word `encode_rti` gives. -/
theorem rtiAborts : Obligations.RtiAborts :=
  ⟨decodesTo_of_matchesRow fun _ => .rti, fun low12 _ =>
    ⟨_, rfl, encode_rti low12 ▸ raise_frame ..⟩⟩

/-- Settles O40: RES only raises, with the word `encode_res` gives. -/
theorem resAborts : Obligations.ResAborts :=
  ⟨decodesTo_of_matchesRow fun _ => .res, fun low12 _ =>
    ⟨_, rfl, encode_res low12 ▸ raise_frame ..⟩⟩

end Sys2Proof.Machine

/-! ## The keyboard poll and the abort -/

namespace Sys2Proof.Machine

section
variable {i : Instr} {s t : State} {c : AbortCause}

/-- The poll changes only memory and the waiting input, as the read of `KBSR_ADDR` it belongs to. -/
theorem kbdPoll_frame (s : State) :
    kbdPoll s = { s with mem := (kbdPoll s).mem, inq := (kbdPoll s).inq } :=
  memRead_poll s rfl ▸ memRead_frame s.cfg.kbsrAddr s

/-- A poll that takes a character leaves it in the data word, which is written last (R148). -/
theorem kbdPoll_read_data {b : Byte} {rest : List Byte} (h : s.inq = b :: rest) :
    (kbdPoll s).mem.read s.cfg.kbdrAddr = BitVec.ofNat 16 b.toNat := by
  simp [kbdPoll_cons s h, zext16]

/-- The fetch is a device-aware read of `pc` (R71, D14). -/
theorem readAt_fetch (s : State) : ReadAt s.pc (fetch s).1 s (fetch s).2 := by
  rw [fetch_eq]
  exact readAt_memRead s.pc s

@[simp] theorem fetch_out (s : State) : (fetch s).2.out = s.out := by simp [fetch_eq]

/-- An instruction that ends the run in ABORTED has linked first if it is TRAP (R130), and has
otherwise done nothing but raise (R131, R132). -/
theorem exec_aborted (hrun : s.run = .running) (hexec : exec i s = .next t)
    (hc : t.run = .aborted c) :
    (∃ v, c = .badTrapVector v ∧ t = raise c (trapLink s)) ∨
      (∃ w, c = .illegalOpcode w ∧ t = raise c s) := by
  have hafter : runAfter i s = .aborted c := (exec_answers i s t hexec).run.symm.trans hc
  cases i with
  | trapOther vect =>
    cases hafter
    cases hexec
    exact .inl ⟨vect, rfl, rfl⟩
  | rti | res =>
    cases hafter
    cases hexec
    exact .inr ⟨_, rfl, rfl⟩
  | trapHalt => cases hafter
  | _ => cases hrun.symm.trans hafter

end

/-- Settles O11: the poll by `polled_kbdPoll`, and the two cases of the read. -/
theorem keyboardPollUpdatesDeviceWords : Obligations.KeyboardPollUpdatesDeviceWords :=
  ⟨fun s => ⟨polled_kbdPoll s, kbdPoll_frame s⟩, fun s => memRead_poll s rfl,
    fun _ s h => memRead_plain s h⟩

/-- Settles O13: the status read is a poll, the data read after it is plain. -/
theorem statusThenDataReadGivesTheCharacter : Obligations.StatusThenDataReadGivesTheCharacter := by
  intro s hcfg
  have hdata : s.cfg.kbdrAddr ≠ (kbdPoll s).cfg.kbsrAddr := by
    symm
    simpa [Config.wf] using hcfg
  rw [memRead_fst, memRead_poll s rfl, memRead_eq_plain hdata]
  refine ⟨kbdPoll_read_status_nil, fun c rest hinq => ⟨?status, ?data⟩⟩
  case status => exact kbdPoll_read_status_ready hcfg (by simp [hinq])
  case data => rw [kbdPoll_read_data hinq]

/-- Settles O49: `exec_aborted` names the state, in which memory and input stand as the fetch left
them. -/
theorem abortLeavesTheExactState : Obligations.AbortLeavesTheExactState := by
  intro s t c hrun hstep hc
  rw [step_running s hrun] at hstep
  obtain ⟨-, hpoll, hplain⟩ := readAt_fetch s
  have hpc : AddrSum (fetch s).2.pc s.pc 1 := fetch_pc s ▸ addrSum_succ s.pc
  have hfault : step t = .fault (.aborted c) := step_aborted hc
  obtain ⟨v, rfl, rfl⟩ | ⟨w, rfl, rfl⟩ := exec_aborted (by rwa [fetch_run]) hstep hc
  · refine ⟨hpc, fun _ _ => ⟨rfl, fun r hr => ?regs⟩, nofun, fetch_cond s, fetch_out s,
      fetch_cfg s, hplain, hpoll, hfault⟩
    case regs => simp [show r ≠ .r7 by simpa using hr]
  · exact ⟨hpc, nofun, fun _ _ r _ => fetch_reg s r, fetch_cond s, fetch_out s, fetch_cfg s,
      hplain, hpoll, hfault⟩

end Sys2Proof.Machine

/-! ## The console streams over a step -/

namespace Sys2Proof.Machine

section
variable {i : Instr} {s t : State}

/-- A device-aware read takes at most the oldest character. -/
theorem memRead_inq_suffix (a : Word) (s : State) : (memRead a s).2.inq <:+ s.inq := by
  by_cases h : a = s.cfg.kbsrAddr
  · rw [memRead_poll s h, kbdPoll_inq]
    exact List.tail_suffix s.inq
  · rw [memRead_plain s h]

/-- Reads only take characters from the front of the input. -/
theorem Reads.inq_suffix (h : Reads s t) : t.inq <:+ s.inq := by
  induction h with
  | refl => exact List.suffix_rfl
  | read a _ ih => exact (memRead_inq_suffix a _).trans ih

theorem fetch_inq_suffix (s : State) : (fetch s).2.inq <:+ s.inq := by
  rw [fetch_eq]
  exact memRead_inq_suffix s.pc s

/-- An effect only appends to the output: the routines that write characters do. -/
theorem Effect.out_prefix (e : Effect i s t) : s.out <+: t.out := by
  cases e with
  | result _ _ _ _ _ _ reads => simp [reads.out]
  | store _ _ _ _ _ _ reads => simp [reads.out]
  | output _ hout => exact hout
  | input _ _ _ _ hout => exact hout
  | _ => exact List.prefix_rfl

/-- An effect only takes characters from the front of the input: reads and the input routines do. -/
theorem Effect.inq_suffix (e : Effect i s t) : t.inq <:+ s.inq := by
  cases e with
  | result _ _ _ _ _ _ reads => exact reads.inq_suffix
  | store _ _ _ _ _ _ reads => exact reads.inq_suffix
  | input b _ _ hinq => exact hinq ▸ List.suffix_cons b _
  | _ => exact List.suffix_rfl

end

/-- Settles O51: the effect of the fetched instruction, after the fetch. -/
theorem stepAppendsOutputAndTakesInput : Obligations.StepAppendsOutputAndTakesInput := by
  intro s t hstep
  obtain hrun | rfl := step_next_cases hstep
  · have e := step_effect hrun hstep
    exact ⟨fetch_out s ▸ e.out_prefix, e.inq_suffix.trans (fetch_inq_suffix s), step_cfg hstep⟩
  · exact ⟨List.prefix_rfl, List.suffix_rfl, rfl⟩

end Sys2Proof.Machine

/-! ## Input behind the characters a step takes

Appending input commutes with every operation that does not find the queue empty. `inputUse` bounds
the characters an instruction takes, so that with that many waiting it commutes with the execution
(`exec_supplyInput`). -/

namespace Sys2Proof.Machine

/-- The most characters executing an instruction can take: one for each device-aware read, and one
for the character of GETC and IN. -/
def inputUse : Instr → Nat
  | .ldi _ _ => 2
  | .ld _ _ | .ldr _ _ _ | .sti _ _ | .trapGetc | .trapIn => 1
  | _ => 0

theorem inputUse_le_two (i : Instr) : inputUse i ≤ 2 := by
  cases i <;> simp [inputUse]

section
variable {i : Instr} {s t : State} {cs : List Byte}

theorem supplyInput_inq_cons {c : Byte} {rest : List Byte} (cs : List Byte)
    (h : s.inq = c :: rest) : (supplyInput cs s).inq = c :: (rest ++ cs) :=
  congrArg (· ++ cs) h

/-- With a character waiting the poll does not see what is behind it. -/
theorem kbdPoll_supplyInput (cs : List Byte) (h : 1 ≤ s.inq.length) :
    kbdPoll (supplyInput cs s) = supplyInput cs (kbdPoll s) := by
  obtain ⟨c, rest, hinq⟩ := List.exists_cons_of_length_pos h
  rw [kbdPoll_cons s hinq, kbdPoll_cons _ (supplyInput_inq_cons cs hinq)]
  rfl

/-- With a character waiting a device-aware read does not see what is behind it. -/
theorem memRead_supplyInput (a : Word) (cs : List Byte) (h : 1 ≤ s.inq.length) :
    memRead a (supplyInput cs s) = ((memRead a s).1, supplyInput cs (memRead a s).2) := by
  by_cases ha : a = s.cfg.kbsrAddr
  · have hstate : (memRead a (supplyInput cs s)).2 = supplyInput cs (memRead a s).2 := by
      rw [memRead_poll s ha, memRead_poll (supplyInput cs s) ha, kbdPoll_supplyInput cs h]
    refine Prod.ext ?_ hstate
    rw [memRead_fst, memRead_fst, hstate]
    rfl
  · rw [memRead_eq_plain ha]
    exact memRead_eq_plain ha

/-- A device-aware read takes at most one character. -/
theorem length_inq_memRead (a : Word) (s : State) :
    s.inq.length ≤ (memRead a s).2.inq.length + 1 := by
  by_cases h : a = s.cfg.kbsrAddr
  · rw [memRead_poll s h, kbdPoll_inq, List.length_tail]
    omega
  · rw [memRead_plain s h]
    omega

theorem fetch_supplyInput (cs : List Byte) (h : 1 ≤ s.inq.length) :
    fetch (supplyInput cs s) = ((fetch s).1, supplyInput cs (fetch s).2) := by
  have hread : memRead (supplyInput cs s).pc (supplyInput cs s) = _ :=
    memRead_supplyInput s.pc cs h
  rw [fetch_eq, fetch_eq, hread]
  rfl

theorem loadInto_supplyInput (dr : Reg) (ea : Word) (cs : List Byte) (h : 1 ≤ s.inq.length) :
    loadInto dr ea (supplyInput cs s) = supplyInput cs (loadInto dr ea s) := by
  rw [loadInto, memRead_supplyInput ea cs h]
  rfl

theorem indirect9_supplyInput (off9 : BitVec 9) (cs : List Byte) (h : 1 ≤ s.inq.length) :
    indirect9 off9 (supplyInput cs s) =
      ((indirect9 off9 s).1, supplyInput cs (indirect9 off9 s).2) :=
  memRead_supplyInput (pcRelative9 off9 s) cs h

/-- The string walk depends on memory alone (R33, D12). -/
theorem walkString_congr (chars : Word → List Byte) (h : t.mem = s.mem) :
    ∀ (n : Nat) (a : Word), walkString chars t n a = walkString chars s n a
  | 0, _ => rfl
  | n + 1, a => by
    rw [walkString, walkString, memRaw, memRaw, h, walkString_congr chars h n]

theorem stringAt_congr (chars : Word → List Byte) (h : t.mem = s.mem) (a : Word) :
    stringAt chars t a = stringAt chars s a :=
  walkString_congr chars h 65536 a

theorem stringRoutine_supplyInput (chars : Word → List Byte) (cs : List Byte)
    (h : stringRoutine chars s = .next t) :
    stringRoutine chars (supplyInput cs s) = .next (supplyInput cs t) := by
  have hmem : (trapLink (supplyInput cs s)).mem = (trapLink s).mem := rfl
  have hr0 : (trapLink (supplyInput cs s)).reg .r0 = (trapLink s).reg .r0 := rfl
  rw [stringRoutine, stringAt_congr chars hmem, hr0]
  rw [stringRoutine] at h
  split at h
  next o hsome =>
    cases h
    rfl
  next => cases h

/-- With as many characters waiting as an instruction can take, it does not see what is behind
them. -/
theorem exec_supplyInput (cs : List Byte) (huse : inputUse i ≤ s.inq.length)
    (h : exec i s = .next t) : exec i (supplyInput cs s) = .next (supplyInput cs t) := by
  cases i with
  | br n z p off9 =>
    rw [exec_br] at h ⊢
    cases h
    rfl
  | ld dr off9 =>
    cases h
    exact congrArg _ (loadInto_supplyInput dr _ cs huse)
  | ldr dr base off6 =>
    cases h
    exact congrArg _ (loadInto_supplyInput dr _ cs huse)
  | ldi dr off9 =>
    cases h
    have htwo : 2 ≤ s.inq.length := huse
    have hpointer : s.inq.length ≤ (indirect9 off9 s).2.inq.length + 1 := length_inq_memRead ..
    rw [exec, execLdi, indirect9_supplyInput off9 cs (by omega)]
    exact congrArg _ (loadInto_supplyInput dr _ cs (by omega))
  | sti sr off9 =>
    rw [exec_sti] at h ⊢
    cases h
    rw [indirect9_supplyInput off9 cs huse]
    rfl
  | trapGetc =>
    obtain ⟨c, rest, hinq⟩ := List.exists_cons_of_length_pos huse
    cases h.symm.trans (execTrapGetc_ready s hinq)
    exact execTrapGetc_ready _ (supplyInput_inq_cons cs hinq)
  | trapIn =>
    obtain ⟨c, rest, hinq⟩ := List.exists_cons_of_length_pos huse
    cases h.symm.trans (execTrapIn_ready s hinq)
    exact execTrapIn_ready _ (supplyInput_inq_cons cs hinq)
  | trapPuts => exact stringRoutine_supplyInput charsOfPuts cs h
  | trapPutsp => exact stringRoutine_supplyInput charsOfPutsp cs h
  | _ =>
    cases h
    rfl

/-- The word a fetch at `KBSR_ADDR` reads takes no input when it is executed: it is 0x8000, RTI, or
else below 2^9, a branch. -/
theorem inputUse_polled_status (s : State) :
    inputUse (decode ((kbdPoll s).mem.read s.cfg.kbsrAddr)) = 0 := by
  cases hinq : s.inq with
  | nil =>
    rw [kbdPoll_read_status_nil hinq]
    rfl
  | cons c rest =>
    have hchar : (zext16 c).toNat ≤ 0x01FF := by
      have hlt := c.isLt
      rw [toNat_zext16]
      omega
    rw [kbdPoll_cons s hinq, memWrite_mem, Memory.read_write]
    split
    · rw [decode_of_le hchar]
      rfl
    · rw [memWrite_mem, Memory.read_write, if_pos rfl]
      rfl

/-- With two characters waiting before the fetch, those left after it are as many as the fetched
instruction can take. -/
theorem inputUse_fetch_le (h : 2 ≤ s.inq.length) :
    inputUse (decode (fetch s).1) ≤ (fetch s).2.inq.length := by
  by_cases hpc : s.pc = s.cfg.kbsrAddr
  · rw [fetch_poll hpc, inputUse_polled_status]
    exact Nat.zero_le _
  · rw [fetch_plain s hpc]
    exact (inputUse_le_two _).trans h

end

/-- Settles O52: the fetch and the execution of the fetched word commute with appending input. -/
theorem laterInputDoesNotAffectTheStep : Obligations.LaterInputDoesNotAffectTheStep := by
  intro s t cs htwo hstep
  cases hrun : s.run with
  | running =>
    rw [step_running s hrun] at hstep
    rw [step_running (supplyInput cs s) hrun, fetch_supplyInput cs (by omega)]
    exact exec_supplyInput cs (inputUse_fetch_le htwo) hstep
  | halted =>
    cases hstep.symm.trans (step_halted hrun)
    exact step_halted (s := supplyInput cs s) hrun
  | aborted c => cases hstep.symm.trans (step_aborted hrun)

end Sys2Proof.Machine

/-! ## The words of an image file -/

namespace Sys2Proof.Machine

/-- A big-endian pair as a number (R34). -/
theorem toNat_append_byte (hi lo : Byte) : (hi ++ lo : Word).toNat = hi.toNat * 256 + lo.toNat := by
  rw [BitVec.toNat_append, ← Nat.shiftLeft_add_eq_or_of_lt lo.isLt, Nat.shiftLeft_eq]

/-- A file of odd length has a byte left over. -/
theorem imageWords_of_odd :
    ∀ {bytes : List Byte}, bytes.length % 2 = 1 → imageWords bytes = none
  | [], h => by cases h
  | [_], _ => rfl
  | hi :: lo :: rest, h => by
    have hrest : rest.length % 2 = 1 := (Nat.add_mod_right rest.length 2).symm.trans h
    rw [imageWords, imageWords_of_odd hrest, Option.map_none]

/-- A file of even length is half as many words, the k-th of them from the bytes 2k and 2k + 1. -/
theorem imageWords_of_even :
    ∀ {bytes : List Byte}, bytes.length % 2 = 0 → ∃ ws, imageWords bytes = some ws ∧
      2 * ws.length = bytes.length ∧ ∀ k (hk : k < ws.length),
        ws[k].toNat = (bytes.getD (2 * k) 0).toNat * 256 + (bytes.getD (2 * k + 1) 0).toNat
  | [], _ => ⟨[], rfl, rfl, fun _ hk => absurd hk (Nat.not_lt_zero _)⟩
  | [_], h => by cases h
  | hi :: lo :: rest, h => by
    have hrest : rest.length % 2 = 0 := (Nat.add_mod_right rest.length 2).symm.trans h
    obtain ⟨ws, hws, hlen, hword⟩ := imageWords_of_even hrest
    refine ⟨(hi ++ lo) :: ws, by rw [imageWords, hws, Option.map_some], ?_, fun k hk => ?_⟩
    · simp only [List.length_cons]
      omega
    · cases k with
      | zero => exact toNat_append_byte hi lo
      | succ k => exact hword k (Nat.lt_of_succ_lt_succ hk)

/-- A file of an origin and words is loaded if the words fit, and refused if they do not (D16). -/
theorem loadImage_of_words {bytes : List Byte} {origin : Word} {ws : List Word} (s : State)
    (h : imageWords bytes = some (origin :: ws)) :
    loadImage bytes s = if origin.toNat + ws.length ≤ 0x10000
      then .ok (s.setMem (storeWords s.mem origin ws)) else .error .overrun := by
  rw [loadImage, h]

theorem loadImage_of_short {bytes : List Byte} (s : State) (h : bytes.length < 2) :
    loadImage bytes s = .error .noOrigin := by
  match bytes, h with
  | [], _ => rfl
  | [_], _ => rfl

theorem loadImage_of_odd {bytes : List Byte} (s : State) (htwo : 2 ≤ bytes.length)
    (hodd : bytes.length % 2 = 1) : loadImage bytes s = .error .oddLength := by
  rw [loadImage, imageWords_of_odd hodd]
  exact if_neg htwo.not_gt

/-- A file of even length, two bytes at least, is the origin and then the words after it. -/
theorem imageWords_eq_origin_cons {bytes : List Byte} (htwo : 2 ≤ bytes.length)
    (heven : bytes.length % 2 = 0) : ∃ origin ws, imageWords bytes = some (origin :: ws) ∧
      origin.toNat = (bytes.getD 0 0).toNat * 256 + (bytes.getD 1 0).toNat ∧
      ws.length = (bytes.length - 2) / 2 ∧ ∀ k (hk : k < ws.length),
        ws[k].toNat = (bytes.getD (2 * k + 2) 0).toNat * 256 + (bytes.getD (2 * k + 3) 0).toNat := by
  obtain ⟨ws, hws, hlen, hword⟩ := imageWords_of_even heven
  cases ws with
  | nil => exact absurd hlen (Nat.ne_of_lt (Nat.lt_of_lt_of_le Nat.two_pos htwo))
  | cons origin ws =>
    refine ⟨origin, ws, hws, hword 0 (Nat.zero_lt_succ _), ?_, fun k hk =>
      hword (k + 1) (Nat.succ_lt_succ hk)⟩
    rw [List.length_cons] at hlen
    omega

section
variable {origin : Word} {ws : List Word} (m : Memory)

/-- The k-th stored word stands k addresses after the origin. -/
theorem read_storeWords_of_lt (hfit : origin.toNat + ws.length ≤ 0x10000) {k : Nat}
    (hk : k < ws.length) :
    (storeWords m origin ws).read (BitVec.ofNat 16 (origin.toNat + k)) = ws[k] := by
  rw [read_storeWords _ ws _ _ (by omega), BitVec.ofNat_add, BitVec.ofNat_toNat,
    BitVec.setWidth_eq, toNat_add_ofNat_sub_self origin (by omega), List.getD_eq_getElem _ _ hk]

/-- Storing words changes no address before the first or past the last. -/
theorem read_storeWords_of_outside (hfit : origin.toNat + ws.length ≤ 0x10000) {a : Word}
    (ha : a.toNat < origin.toNat ∨ origin.toNat + ws.length ≤ a.toNat) :
    (storeWords m origin ws).read a = m.read a := by
  have hpast : ws.length ≤ (a - origin).toNat := by bv_omega
  rw [read_storeWords a ws _ _ (by omega), List.getD_eq_default _ _ hpast]

end

/-- Settles O59: a short file and an odd one have no words to load; an even one is its origin and
its words (`imageWords_eq_origin_cons`), which are stored if they fit. -/
theorem imageLoadsBigEndianWords : Obligations.ImageLoadsBigEndianWords := by
  intro bytes s
  refine ⟨loadImage_of_short s, loadImage_of_odd s, fun htwo heven hover => ?_,
    fun htwo heven hfit => ?_⟩
  · obtain ⟨origin, ws, hwords, horigin, hlen, -⟩ := imageWords_eq_origin_cons htwo heven
    rw [← horigin, ← hlen] at hover
    rw [loadImage_of_words s hwords, if_neg hover.not_ge]
  · obtain ⟨origin, ws, hwords, horigin, hlen, hword⟩ := imageWords_eq_origin_cons htwo heven
    rw [← horigin, ← hlen] at hfit ⊢
    refine ⟨_, (loadImage_of_words s hwords).trans (if_pos hfit), rfl, fun k hk => ?_,
      fun a ha => ?_⟩
    · exact (congrArg BitVec.toNat (read_storeWords_of_lt s.mem hfit hk)).trans (hword k hk)
    · exact read_storeWords_of_outside s.mem hfit ha

end Sys2Proof.Machine
